-- ==== Sys2Proof/Word.lean ====
section
/-! DEFINITION. The two bit-vector types of LFP-1: the 16-bit command word (30_encoding.md R70) and the byte of the
output stream (00_scope.md R7, BYTE_W). Bit 0 is the least-significant bit (00_scope.md R10). -/

namespace Sys2Proof

/-- A command word, 16 bits (R70); also a status word (10_state.md R34) and FINFO (R33). -/
abbrev Word := BitVec 16

/-- A byte of the staging buffer and of the output stream (R7: BYTE_W = 8). -/
abbrev Byte := BitVec 8

end Sys2Proof
end

