-- ==== Sys2Proof/Config.lean ====
section
/-! DEFINITION. The fixed parameters of LFP-1 (00_scope.md R7 and R8). None is an argument of the model and none is a
free value: "nothing in the block is left to a draw" (93_implementation_defined.md, Part 1). -/

namespace Sys2Proof.Config

/-- ALPHA_N (R7): the number of symbols of the alphabet and of a deck. -/
abbrev alphaN : Nat := 52

/-- ENC_N (R7): the number of deck positions that are encoded, 0 to 50. -/
abbrev encN : Nat := 51

/-- DIFF_W (R7): the width of the difficulty field. -/
abbrev diffW : Nat := 7

/-- DIFF_BIAS (R7): what is subtracted from minimumSolutionLength. -/
abbrev diffBias : Nat := 52

/-- PERM_BITS (R7): the sum of the 51 field widths. -/
abbrev permBits : Nat := 249

/-- REC_BITS (R7): the bits of one record. -/
abbrev recBits : Nat := 256

/-- REC_BYTES (R7): the bytes of one record. -/
abbrev recBytes : Nat := 32

/-- WID_MAX (R8): the largest width operand PUSH accepts. -/
abbrev widMax : Nat := 8

/-- RBUF_BYTES (R8): the capacity of the staging buffer. -/
abbrev rbufBytes : Nat := 32

/-- STREAM_MAX (R8): the largest number of bits one stream may hold. -/
abbrev streamMax : Nat := 256

end Sys2Proof.Config
end

