-- ==== Sys2Proof/Syntax.lean ====
section
/-! DEFINITION. The command set of LFP-1 (00_scope.md R2), one constructor per row of spec/opcode_table.json, with the
operands of 30_encoding.md R72. -/

namespace Sys2Proof

/-- The six operations (30_encoding.md R73). -/
inductive Instr where
  /-- OPEN (42_record_sequencer.md R131): begin a stream. -/
  | openStream
  /-- DIFF msl (R133): pack the difficulty field. -/
  | diff (msl : BitVec 8)
  /-- DEAL sym (40_rank_encoder.md R96): present the next symbol of the deck. -/
  | deal (sym : BitVec 6)
  /-- PUSH wid, val (41_bit_packer.md R116): hand one raw (value, width) pair to the packer. -/
  | push (wid : BitVec 4) (val : BitVec 8)
  /-- CLOSE (R136): finalise the stream and commit it. -/
  | close
  /-- CLR (R139): soft reset. -/
  | clr
deriving DecidableEq, Repr

end Sys2Proof
end

