-- ==== Sys2Proof/WellFormed.lean ====
section
/-! DEFINITION. Which terms of `Instr` are operations of LFP-1. Every operand fits its field by its type; the one
check left is PUSH's width, "0 to 8 are accepted; 9 to 15 make the word illegal" (30_encoding.md R72, R80). -/

namespace Sys2Proof

/-- The term is an operation of the command set (R73, with PUSH's condition `cmd[11:8] <= 8` of R74). -/
def Instr.wellFormed : Instr → Bool
  | .openStream => true
  | .diff _ => true
  | .deal _ => true
  | .push wid _ => decide (wid.toNat ≤ Config.widMax)
  | .close => true
  | .clr => true

end Sys2Proof
end

