-- ==== Sys2Proof/Decode.lean ====
section
/-! DEFINITION. Decoding a command word (30_encoding.md R70 to R74, R80, R81), total on all 65536 words and rejecting by
name, and after it the encoder written from the same tables. Decoding does not depend on the state (R83). -/

namespace Sys2Proof

/-- Why a word selects no operation: one name for each bullet of 30_encoding.md R80. -/
inductive IllegalReason where
  /-- op in 0x0, 0x6 to 0xE: no operation has this opcode. -/
  | unassignedOpcode
  /-- a reserved field is not zero: bits 11:0 of format Z, 11:8 of format M, 11:6 of format S (R81). -/
  | reservedField
  /-- PUSH with wid in 9 to 15. -/
  | widthTooLarge
deriving DecidableEq, Repr

/-- What the decoder says of a word: an operation, or illegal and why. -/
inductive Decoded where
  | instr (i : Instr)
  | illegal (why : IllegalReason)
deriving DecidableEq, Repr

/-- `cmd[15:12]`, the opcode field `op` (R71). -/
def opField (w : Word) : BitVec 4 := w.extractLsb' 12 4

/-- `cmd[11:0]`, the zero field of format Z (R71). -/
def zeroFieldZ (w : Word) : BitVec 12 := w.extractLsb' 0 12

/-- `cmd[11:8]`, the zero field of format M (R71). -/
def zeroFieldM (w : Word) : BitVec 4 := w.extractLsb' 8 4

/-- `cmd[11:6]`, the zero field of format S (R71). -/
def zeroFieldS (w : Word) : BitVec 6 := w.extractLsb' 6 6

/-- `msl = cmd[7:0]` (R72). -/
def mslField (w : Word) : BitVec 8 := w.extractLsb' 0 8

/-- `sym = cmd[5:0]` (R72). -/
def symField (w : Word) : BitVec 6 := w.extractLsb' 0 6

/-- `wid = cmd[11:8]` (R72). -/
def widField (w : Word) : BitVec 4 := w.extractLsb' 8 4

/-- `val = cmd[7:0]` (R72). -/
def valField (w : Word) : BitVec 8 := w.extractLsb' 0 8

/-- A format Z word: the operation if its zero field is zero, else illegal (R71, R81). -/
def decodeFormatZ (i : Instr) (w : Word) : Decoded :=
  if zeroFieldZ w = 0 then .instr i else .illegal .reservedField

/-- A format M word, DIFF (R71). -/
def decodeDiff (w : Word) : Decoded :=
  if zeroFieldM w = 0 then .instr (.diff (mslField w)) else .illegal .reservedField

/-- A format S word, DEAL (R71). -/
def decodeDeal (w : Word) : Decoded :=
  if zeroFieldS w = 0 then .instr (.deal (symField w)) else .illegal .reservedField

/-- A format P word, PUSH, with the condition `cmd[11:8] <= 8` (R71, R74). -/
def decodePush (w : Word) : Decoded :=
  if (widField w).toNat ≤ Config.widMax then .instr (.push (widField w) (valField w)) else .illegal .widthTooLarge

/-- The decoder (R73, R74, R80): every word is one of the six operations or illegal. -/
def decode (w : Word) : Decoded :=
  if opField w = 0x1 then decodeFormatZ .openStream w
  else if opField w = 0x2 then decodeDiff w
  else if opField w = 0x3 then decodeDeal w
  else if opField w = 0x4 then decodePush w
  else if opField w = 0x5 then decodeFormatZ .close w
  else if opField w = 0xF then decodeFormatZ .clr w
  else .illegal .unassignedOpcode

/-- The word is one of the 2627 legal words (R73, R80). -/
def legal (w : Word) : Bool :=
  match decode w with
  | .instr _ => true
  | .illegal _ => false

/-- The word of an operation, field by field from the formats of R71 and the opcodes of R73. -/
def encode : Instr → Word
  | .openStream => 0x1#4 ++ 0#12
  | .diff msl => 0x2#4 ++ 0#4 ++ msl
  | .deal sym => 0x3#4 ++ 0#6 ++ sym
  | .push wid val => 0x4#4 ++ wid ++ val
  | .close => 0x5#4 ++ 0#12
  | .clr => 0xF#4 ++ 0#12

/-- The instruction the decoder reads from a row's word, given as a number whose bit 0 is the word's least-significant
bit; bits at and above `nbits` are 0. Every command is one 16-bit word (R70), and the word has no byte order (R53). -/
def decodeTableWord (nbits w : Nat) : Option Instr :=
  match decode (BitVec.ofNat 16 (w % 2 ^ nbits)) with
  | .instr i => some i
  | .illegal _ => none

end Sys2Proof
end

