-- ==== Sys2Proof/Machine/State.lean ====
section
/-! DEFINITION. The state of LFP-1 (10_state.md R20, whose ten items are "the whole state"), the events the host can
present, the state after reset (R40), and the ways a step can stop (none, 60_exceptions.md R169). Plain data. -/

namespace Sys2Proof.Machine

/-- PHASE (10_state.md R31). "Code 3 is never held", so it has no constructor (log entry 7). -/
inductive Phase where
  /-- IDLE = 0: no stream is open. -/
  | idle
  /-- OPEN = 1: a stream is open. -/
  | opened
  /-- HALT = 2: a fault was taken. -/
  | halted
deriving DecidableEq, Repr

/-- CAUSE (10_state.md R32, 60_exceptions.md R160). "Codes 5 to 7 are never held", so they have no constructor (log
entry 7). -/
inductive Cause where
  /-- 0 NONE: no fault since reset or CLR. -/
  | none
  /-- 1 ILLCMD: an illegal word in phase IDLE or OPEN. -/
  | illcmd
  /-- 2 SEQ: a legal word that the phase does not allow. -/
  | seq
  /-- 3 BADSYM: an examined DEAL whose operand is not a symbol. -/
  | badsym
  /-- 4 OVERRUN: a pair that would make the stream longer than 256 bits. -/
  | overrun
deriving DecidableEq, Repr

/-- What the host can do to the state (00_scope.md R14): present one command word, or assert hardware reset between two
commands (70_reset_and_hazards.md R190). -/
inductive Event where
  | command (w : Word)
  | reset
deriving DecidableEq, Repr

/-- The whole state (10_state.md R20), and the model's own `port` (log entry 1). -/
structure State where
  /-- AVAIL[0..51] (R21): flag k is 1 (true) when symbol k has not been consumed in this stream. -/
  avail : Vector Bool 52
  /-- N (R22): the number of DEAL commands processed in this stream, 0 to 51. -/
  n : Fin 52
  /-- ACC (R23): the in-progress output byte, filled from bit 7 down. -/
  acc : Byte
  /-- CUR (R24): how many bits of ACC are filled, 0 to 7. -/
  cur : Fin 8
  /-- RBUF (R38): the completed bytes of the open stream, oldest first. -/
  rbuf : List Byte
  /-- PHASE (R31). -/
  phase : Phase
  /-- WARN (R29): the sticky diagnostic flag. -/
  warn : Bool
  /-- CAUSE (R32): the fault that put the block in HALT, else NONE. -/
  cause : Cause
  /-- FINFO (R33): the command word that faulted, else 0. -/
  finfo : Word
  /-- OUT (R37): the output stream, byte address = place in the list. -/
  out : List Byte
  /-- The model's own: what the host has yet to present, next first (log entry 1). -/
  port : List Event
deriving DecidableEq, Repr

/-- The state right after reset (10_state.md R40). OUT is not reset by the spec; here it is the empty sink of
70_reset_and_hazards.md R197 (log entry 4, DESIGN CHOICE). The host has nothing pending (log entry 1, DESIGN CHOICE). -/
def State.reset : State where
  avail := Vector.replicate 52 true
  n := 0
  acc := 0
  cur := 0
  rbuf := []
  phase := .idle
  warn := false
  cause := .none
  finfo := 0
  out := []
  port := []

/-- The stops of the machine: there is none. "The step function has no undefined case, no unpredictable result and no
state in which the block is stuck" (60_exceptions.md R169); the spec's four faults are next states (R170). Safe and
unsafe do not arise. -/
inductive Fault where
deriving DecidableEq, Repr

/-- The refusals of the model. -/
inductive Refusal where
  /-- An instruction that has no meaning yet, raised by its arm of `exec` alone; no arm raises it. Safe. -/
  | notModelled (mnemonic : String)
deriving DecidableEq, Repr

end Sys2Proof.Machine
end

