-- ==== Sys2Proof/Machine/Flags.lean ====
section
/-! DEFINITION. The flag WARN (10_state.md R29) and the finalization check (41_bit_packer.md R120), the register codes
(10_state.md R31, R32), the status view (R34) and the two output levels (60_exceptions.md R167). LFP-1 has no condition
codes (10_state.md R30). -/

namespace Sys2Proof.Machine

/-- The diagnostic `diag`: WARN <- 1, "its whole effect" (60_exceptions.md R166, 00_scope.md R13). -/
def diag (s : State) : State := { s with warn := true }

/-- `Finalize()`: if CUR /= 0 then diag; WARN is not cleared when CUR = 0 (41_bit_packer.md R120, R136). -/
def finalize (s : State) : State := if s.cur = 0 then s else diag s

/-- The code of PHASE, 2 bits (10_state.md R31). -/
def phaseCode : Phase → BitVec 2
  | .idle => 0
  | .opened => 1
  | .halted => 2

/-- The code of CAUSE, 3 bits (10_state.md R32, 60_exceptions.md R160). -/
def causeCode : Cause → BitVec 3
  | .none => 0
  | .illcmd => 1
  | .seq => 2
  | .badsym => 3
  | .overrun => 4

/-- SR0 STATUS (10_state.md R34), bit 15 first: zero [15:11], CUR [10:8], 0 [7], CAUSE [6:4], 0 [3], WARN [2],
PHASE [1:0]. -/
def statusWord (s : State) : Word :=
  0#5 ++ BitVec.ofNat 3 s.cur ++ 0#1 ++ causeCode s.cause ++ 0#1 ++ BitVec.ofBool s.warn ++ phaseCode s.phase

/-- SR1 POS (10_state.md R34), bit 15 first: zero [15:14], RBCNT [13:8], zero [7:6], N [5:0]. -/
def posWord (s : State) : Word :=
  0#2 ++ BitVec.ofNat 6 s.rbuf.length ++ 0#2 ++ BitVec.ofNat 6 s.n

/-- The status words by number (10_state.md R34): 0 STATUS, 1 POS, 2 FINFO; there are no others. Reading one is not a
command and changes nothing (R34, 20_memory.md R59; log entry 12). -/
def readStatus (number : Nat) (s : State) : Option Word :=
  if number = 0 then some (statusWord s)
  else if number = 1 then some (posWord s)
  else if number = 2 then some s.finfo
  else none

/-- The output level `fault` = (PHASE = HALT) (60_exceptions.md R167). -/
def faultLevel (s : State) : Bool := decide (s.phase = .halted)

/-- The output level `warn` = WARN (60_exceptions.md R167). -/
def warnLevel (s : State) : Bool := s.warn

end Sys2Proof.Machine
end

