-- ==== Sys2Proof/Machine/Operands.lean ====
section
/-! DEFINITION. The operand computations of LFP-1: clog2 and popcount_below (00_scope.md R12), the width schedule and
the rank (40_rank_encoder.md R91, R93), the difficulty (42_record_sequencer.md R133), which indices are symbols
(00_scope.md R15). All arithmetic is on mathematical integers (R12). -/

namespace Sys2Proof.Machine

/-- The search behind `clog2`: raise `w` until `2 ^ w >= r`, at most `fuel` times. -/
def clog2Search (r : Nat) : Nat → Nat → Nat
  | 0, w => w
  | fuel + 1, w => if 2 ^ w < r then clog2Search r fuel (w + 1) else w

/-- `clog2(r)` (R12): the least `w` with `2 ^ w >= r`. The search never needs more than `r` steps. -/
def clog2 (r : Nat) : Nat := clog2Search r r 0

/-- `width(n) = clog2(52 - n)`, the width of deck position n (40_rank_encoder.md R91). -/
def fieldWidth (n : Nat) : Nat := clog2 (Config.alphaN - n)

/-- AVAIL[j] (10_state.md R21), false past the file's end, which no rule reads. -/
def availFlag (a : Vector Bool 52) (j : Nat) : Bool := a[j]?.getD false

/-- `popcount_below(A, k)` (00_scope.md R12): the number of j below k with A[j] = 1. -/
def popcountBelow (a : Vector Bool 52) (k : Nat) : Nat := (List.range k).countP (availFlag a)

/-- `rank(A, k) = popcount_below(A, k)` (40_rank_encoder.md R93). -/
def rank (a : Vector Bool 52) (sym : BitVec 6) : Nat := popcountBelow a sym.toNat

/-- The index names a symbol: 0 to 51 do, 52 to 63 do not (00_scope.md R15, 40_rank_encoder.md R97). -/
def isSymbol (sym : BitVec 6) : Bool := decide (sym.toNat < Config.alphaN)

/-- `d = (msl - 52) mod 128`, subtraction on the integers and mathematical mod (42_record_sequencer.md R133, 00_scope.md
R12). -/
def difficulty (msl : BitVec 8) : Nat := (((msl.toNat : Int) - Config.diffBias) % 128).toNat

end Sys2Proof.Machine
end

