-- ==== Sys2Proof/Machine/Ops.lean ====
section
/-! DEFINITION. The shared operations over LFP-1's registers and byte spaces: fault entry (60_exceptions.md R170) and
recovery (R173, 42_record_sequencer.md R139), the packer's primitive Pack (41_bit_packer.md R111) and its capacity
check (R113), the start of a stream (R131), the commit (R136), and the phase check every command makes. -/

namespace Sys2Proof.Machine

/-- Fault entry, `raise F(cmd)`: PHASE <- HALT, CAUSE <- code of F, FINFO <- cmd, "exactly this and nothing else"
(60_exceptions.md R170). There is no saved pc or status, no vector and no handler (R170). -/
def raiseFault (f : Cause) (cmd : Word) (s : State) : State :=
  { s with phase := .halted, cause := f, finfo := cmd }

/-- The way out of HALT: every register at its reset value, OUT untouched (10_state.md R40, 42_record_sequencer.md R139,
60_exceptions.md R173). What the host has yet to present is the host's and stays (log entry 3). -/
def resetRegisters (s : State) : State :=
  { s with
    avail := Vector.replicate 52 true, n := 0, acc := 0, cur := 0, rbuf := [], phase := .idle, warn := false,
    cause := .none, finfo := 0 }

/-- SBITS = 8 * RBCNT + CUR: the bits packed into the open stream (10_state.md R26). -/
def streamLength (s : State) : Nat := 8 * s.rbuf.length + s.cur

/-- The capacity check `8 * RBCNT + CUR + w <= 256` (41_bit_packer.md R113). -/
def fits (w : Nat) (s : State) : Bool := decide (streamLength s + w ≤ Config.streamMax)

/-- `ACC[k] <- b`: one bit of a byte written, the others kept (00_scope.md R10). -/
def setBit (a : Byte) (k : Nat) (b : Bool) : Byte :=
  if b then a ||| BitVec.twoPow 8 k else a &&& ~~~(BitVec.twoPow 8 k)

/-- The body of Pack's loop for the stream bit `b` (41_bit_packer.md R111): ACC[7 - CUR] <- b; CUR <- CUR + 1; a
completed byte goes to the end of RBUF, and ACC and CUR return to 0. CUR = 8 is never stored. -/
def packBit (b : Bool) (s : State) : State :=
  if s.cur = 7 then { s with acc := 0, cur := 0, rbuf := s.rbuf ++ [setBit s.acc (7 - s.cur) b] }
  else { s with acc := setBit s.acc (7 - s.cur) b, cur := s.cur + 1 }

/-- `Pack(v, w)`: the bits v[w-1] down to v[0], in that order (41_bit_packer.md R111). -/
def pack (v : Nat) : Nat → State → State
  | 0, s => s
  | w + 1, s => pack v w (packBit (v.testBit w) s)

/-- What DIFF, a processed DEAL and PUSH end in: if the pair (v, w) does not fit, OVERRUN and nothing else; if it fits,
the command's other register writes `also`, and Pack (41_bit_packer.md R113, 60_exceptions.md R164). -/
def packOrOverrun (cmd : Word) (v w : Nat) (also : State → State) (s : State) : State :=
  if fits w s then pack v w (also s) else raiseFault .overrun cmd s

/-- `AVAIL[sym] <- 0; N <- N + 1` (40_rank_encoder.md R96). -/
def consumeSymbol (sym : BitVec 6) (s : State) : State :=
  { s with avail := s.avail.setIfInBounds sym.toNat false, n := s.n + 1 }

/-- The register writes of OPEN (42_record_sequencer.md R131): a fresh encoder and a fresh packer. -/
def beginStream (s : State) : State :=
  { s with avail := Vector.replicate 52 true, n := 0, acc := 0, cur := 0, rbuf := [], phase := .opened }

/-- `len(OUT)`: the byte address a commit writes to (20_memory.md R57). -/
def commitAddress (s : State) : Nat := s.out.length

/-- The byte of OUT at an address, none where the sink holds no byte (10_state.md R37). -/
def outByte (s : State) (addr : Nat) : Option Byte := s.out[addr]?

/-- OUT written as cells: each byte under its address, which is its ordinal (10_state.md R37, 20_memory.md R60). -/
def outCells (s : State) : List Host.Cell := s.out.zipIdx.map fun p => (p.2, p.1)

/-- The canonical form of a list of cells: addresses strictly rising. An address that no cell has holds no byte, so no cell
is redundant (log entry 5). -/
abbrev Memory.wf (cells : List Host.Cell) : Prop := (cells.map Prod.fst).Pairwise (· < ·)

/-- `MemWrite(addr, n, v)` into OUT with `n` the number of bytes of `v`: they stand at addr to addr + n - 1. It is used at
`commitAddress` only, where it is an append (00_scope.md R13, 20_memory.md R57). -/
def memWrite (out : List Byte) (addr : Nat) (v : List Byte) : List Byte :=
  out.take addr ++ v ++ out.drop (addr + v.length)

/-- The commit of CLOSE: MemWrite(len(OUT), RBCNT, RBUF), then the packer emptied and PHASE <- IDLE; the pending bits of
ACC are dropped (42_record_sequencer.md R136, 20_memory.md R55). -/
def commit (s : State) : State :=
  { s with out := memWrite s.out (commitAddress s) s.rbuf, rbuf := [], acc := 0, cur := 0, phase := .idle }

/-- The phase check of a command that is allowed in phase OPEN only: in HALT it is ignored, in IDLE it raises SEQ with
its own word (60_exceptions.md R168, R162, R171; log entry 9). -/
def whenOpen (i : Instr) (s : State) (effect : State) : State :=
  match s.phase with
  | .halted => s
  | .idle => raiseFault .seq (encode i) s
  | .opened => effect

end Sys2Proof.Machine
end

