-- ==== Sys2Proof/Machine/BitPacker.lean ====
section
/-! DEFINITION. The Bit Packer's operation PUSH (41_bit_packer.md). -/

namespace Sys2Proof.Machine

/-- PUSH wid, val in phase OPEN (R116): Pack(val, wid), or OVERRUN. wid = 0 packs nothing (R118); high bits of val are
dropped (R119). -/
def pushInOpen (wid : BitVec 4) (val : BitVec 8) (s : State) : State :=
  packOrOverrun (encode (.push wid val)) val.toNat wid.toNat id s

/-- PUSH wid, val (R116): SEQ in IDLE, ignored in HALT. The word of a wid in 9 to 15 is illegal, so such a term, which
the decoder never gives, takes ILLCMD before the phase is looked at (60_exceptions.md R168; log entry 8). -/
def execPush (wid : BitVec 4) (val : BitVec 8) (s : State) : Host.Outcome State Fault Refusal :=
  if wid.toNat ≤ Config.widMax then .next (whenOpen (.push wid val) s (pushInOpen wid val s))
  else if s.phase = .halted then .next s
  else .next (raiseFault .illcmd (encode (.push wid val)) s)

end Sys2Proof.Machine
end

