-- ==== Sys2Proof/Machine/RankEncoder.lean ====
section
/-! DEFINITION. The Rank Encoder's operation DEAL (40_rank_encoder.md). -/

namespace Sys2Proof.Machine

/-- DEAL sym in phase OPEN (R96), in the order of 60_exceptions.md R168: at N = 51 no effect and the operand is not
examined (R98); sym 52 to 63 raises BADSYM (R97); else the rank among the available symbols in clog2(52 - N) bits is
packed, AVAIL[sym] cleared and N advanced, or OVERRUN raised. A repeated symbol is not detected (R99). -/
def dealInOpen (sym : BitVec 6) (s : State) : State :=
  if s.n = 51 then s
  else if isSymbol sym then
    packOrOverrun (encode (.deal sym)) (rank s.avail sym) (fieldWidth s.n) (consumeSymbol sym) s
  else raiseFault .badsym (encode (.deal sym)) s

/-- DEAL sym (R96): SEQ in IDLE, ignored in HALT. -/
def execDeal (sym : BitVec 6) (s : State) : Host.Outcome State Fault Refusal :=
  .next (whenOpen (.deal sym) s (dealInOpen sym s))

end Sys2Proof.Machine
end

