-- ==== Sys2Proof/Machine/Sequencer.lean ====
section
/-! DEFINITION. The record sequencer's operations: OPEN, DIFF, CLOSE, CLR (42_record_sequencer.md). -/

namespace Sys2Proof.Machine

/-- OPEN (R131): in IDLE a fresh stream; in OPEN it raises SEQ and does not restart the stream (R132); in HALT ignored
(60_exceptions.md R171). -/
def execOpen (s : State) : Host.Outcome State Fault Refusal :=
  match s.phase with
  | .halted => .next s
  | .idle => .next (beginStream s)
  | .opened => .next (raiseFault .seq (encode .openStream) s)

/-- DIFF msl (R133): Pack((msl - 52) mod 128, 7), wherever the cursor stands (R135); OVERRUN if it does not fit. -/
def execDiff (msl : BitVec 8) (s : State) : Host.Outcome State Fault Refusal :=
  .next (whenOpen (.diff msl) s (packOrOverrun (encode (.diff msl)) (difficulty msl) Config.diffW id s))

/-- CLOSE (R136): the finalization check, the commit of the completed bytes, the packer emptied, PHASE <- IDLE. AVAIL and
N keep their values. -/
def execClose (s : State) : Host.Outcome State Fault Refusal :=
  .next (whenOpen .close s (commit (finalize s)))

/-- CLR (R139): the reset state in every phase, OUT untouched. -/
def execClr (s : State) : Host.Outcome State Fault Refusal :=
  .next (resetRegisters s)

end Sys2Proof.Machine
end

