-- ==== Sys2Proof/Machine/Dispatch.lean ====
section
/-! DEFINITION. One arm per operation of the opcode table, each a direct call of its meaning. -/

namespace Sys2Proof.Machine

def exec (i : Instr) (s : State) : Host.Outcome State Fault Refusal :=
  match i with
  | .openStream => Sys2Proof.Machine.execOpen s
  | .diff msl => Sys2Proof.Machine.execDiff msl s
  | .deal sym => Sys2Proof.Machine.execDeal sym s
  | .push wid val => Sys2Proof.Machine.execPush wid val s
  | .close => Sys2Proof.Machine.execClose s
  | .clr => Sys2Proof.Machine.execClr s

end Sys2Proof.Machine
end

