-- ==== Sys2Proof/Machine/Command.lean ====
section
/-! DEFINITION. What the block does with one thing the host presents: a command word (60_exceptions.md R168, R171) or
hardware reset (70_reset_and_hazards.md R190). -/

namespace Sys2Proof.Machine

/-- A word outside HALT: decoded; an illegal word raises ILLCMD, a legal one is executed (60_exceptions.md R168 items 2
to 8, R161). -/
def runWord (w : Word) (s : State) : Host.Outcome State Fault Refusal :=
  match decode w with
  | .illegal _ => .next (raiseFault .illcmd w s)
  | .instr i => exec i s

/-- `step(s, cmd)` of 00_scope.md R14, in the order of 60_exceptions.md R168. In HALT "the word is compared with 0xF000
only and everything else is ignored without being decoded" (30_encoding.md R83, R171). -/
def presentWord (w : Word) (s : State) : Host.Outcome State Fault Refusal :=
  match s.phase with
  | .halted => if w = 0xF000 then exec .clr s else .next s
  | .idle => runWord w s
  | .opened => runWord w s

/-- Hardware reset: every register at its reset value, OUT untouched; "identical to that of the command CLR"
(70_reset_and_hazards.md R190, 10_state.md R40). -/
def hardReset (s : State) : State := resetRegisters s

/-- One event of the host. -/
def takeEvent (e : Event) (s : State) : Host.Outcome State Fault Refusal :=
  match e with
  | .command w => presentWord w s
  | .reset => .next (hardReset s)

/-- The word is placed as the next thing the host presents, before what it had pending. -/
def presentNext (w : Word) (s : State) : State := { s with port := .command w :: s.port }

end Sys2Proof.Machine
end

