-- ==== Sys2Proof/Machine/Step.lean ====
section
/-! DEFINITION. One step of the machine: the next event of the host is consumed and takes its effect. -/

namespace Sys2Proof.Machine

/-- One step. The host's next event is taken from `port` ("a command word is consumed when it is presented",
10_state.md R36) and has its effect. With nothing pending the block waits and nothing changes (70_reset_and_hazards.md
R191, 00_scope.md R14; log entry 2). -/
def step (s : State) : Host.Outcome State Fault Refusal :=
  match s.port with
  | [] => .next s
  | e :: rest => takeEvent e { s with port := rest }

/-- The host presents next the word whose bits are `w`, bits at and above `nbits` being 0 (log entries 1 and 11). Nothing
else changes. -/
def State.withFetchWord (s : State) (nbits w : Nat) : State :=
  presentNext (BitVec.ofNat 16 (w % 2 ^ nbits)) s

end Sys2Proof.Machine
end

