-- ==== Sys2Proof/Machine/Pseudo.lean ====
section
/-! DEFINITION. What 30_encoding.md R84 to R86 write in command words: the assembler spelling of a command, the alphabet
(00_scope.md R15), the pseudo-operations DECK, RECORD, RECORD51 and the catalog. None is a word of its own; each is the
list of words the host presents. A deck is a list of alphabet indices, as DEAL takes them (00_scope.md R8, SYM_W). -/

namespace Sys2Proof.Machine

/-- The alphabet: "uppercase A–Z, lowercase a–z, in that concatenated order" (00_scope.md R15). -/
def alphabet : List Char :=
  ['A', 'B', 'C', 'D', 'E', 'F', 'G', 'H', 'I', 'J', 'K', 'L', 'M'] ++
  ['N', 'O', 'P', 'Q', 'R', 'S', 'T', 'U', 'V', 'W', 'X', 'Y', 'Z'] ++
  ['a', 'b', 'c', 'd', 'e', 'f', 'g', 'h', 'i', 'j', 'k', 'l', 'm'] ++
  ['n', 'o', 'p', 'q', 'r', 's', 't', 'u', 'v', 'w', 'x', 'y', 'z']

/-- The index of an alphabet character, none for any other character (00_scope.md R15). -/
def symbolIndex (c : Char) : Option (BitVec 6) := (alphabet.idxOf? c).map (BitVec.ofNat 6)

/-- A deck written in characters, as indices; none if a character is not in the alphabet (30_encoding.md R84). -/
def deckOfChars (cs : List Char) : Option (List (BitVec 6)) := cs.mapM symbolIndex

/-- The spelling of a command: the mnemonic in capitals, operands in decimal separated by a comma (30_encoding.md R84). -/
def asmLine : Instr → String
  | .openStream => "OPEN"
  | .diff msl => "DIFF " ++ toString msl.toNat
  | .deal sym => "DEAL " ++ toString sym.toNat
  | .push wid val => "PUSH " ++ toString wid.toNat ++ ", " ++ toString val.toNat
  | .close => "CLOSE"
  | .clr => "CLR"

/-- DECK: one DEAL per symbol, in deck order (30_encoding.md R85). -/
def deckWords (deck : List (BitVec 6)) : List Word := deck.map fun sym => encode (.deal sym)

/-- RECORD msl, deck: OPEN; DIFF msl; DECK deck; CLOSE (30_encoding.md R85). -/
def recordWords (msl : BitVec 8) (deck : List (BitVec 6)) : List Word :=
  encode .openStream :: encode (.diff msl) :: (deckWords deck ++ [encode .close])

/-- RECORD51 msl, deck: RECORD with the first 51 symbols of the deck (30_encoding.md R85). -/
def record51Words (msl : BitVec 8) (deck : List (BitVec 6)) : List Word :=
  recordWords msl (deck.take Config.encN)

/-- A catalog: the RECORD expansions of its configurations in order, with nothing between them (30_encoding.md R86). -/
def catalogWords (configs : List (BitVec 8 × List (BitVec 6))) : List Word :=
  configs.flatMap fun c => recordWords c.1 c.2

end Sys2Proof.Machine
end

