-- ==== Sys2Proof/Machine/Reference.lean ====
section
/-! DEFINITION. The spec's own functions beside the machine, in which its laws are said: the bits of a field and of a byte
in stream order (20_memory.md R50, R51), the layout of a canonical record (42_record_sequencer.md R141) with the Lehmer
digits of its deck (40_rank_encoder.md R95), and the reference decoder (95_test_vectors.md section 5). The machine uses
none of them; the decoder is no part of LFP-1 (00_scope.md R5). -/

namespace Sys2Proof.Machine

/-- The `w` low bits of `v`, most-significant first: the order in which a field is emitted (20_memory.md R50). -/
def fieldBits (v : Nat) : Nat → List Bool
  | 0 => []
  | w + 1 => v.testBit w :: fieldBits v w

/-- The eight stream bits of a byte, its most-significant bit first (20_memory.md R51, 00_scope.md R11). -/
def byteBits (b : Byte) : List Bool := fieldBits b.toNat 8

/-- The stream bits of a sequence of bytes, in byte order (20_memory.md R52). -/
def bytesBits (bs : List Byte) : List Bool := bs.flatMap byteBits

/-- The number whose binary digits, most-significant first, are the given bits (95_test_vectors.md section 5, `field`). -/
def bitsValue (bits : List Bool) : Nat := bits.foldl (fun acc b => 2 * acc + b.toNat) 0

/-- `field(p, w)`: the number in the `w` bits from bit `p` on. -/
def fieldAt (bits : List Bool) (p w : Nat) : Nat := bitsValue ((bits.drop p).take w)

/-- The rank fields of a deck, for each position the number of later, smaller symbols, in clog2(symbols remaining) bits
(40_rank_encoder.md R95, R91). -/
def lehmerBits : List Nat → List Bool
  | [] => []
  | d :: later => fieldBits (later.countP (· < d)) (clog2 (later.length + 1)) ++ lehmerBits later

/-- The bits of the canonical record of a valid deck: the difficulty in 7 bits, then the rank fields in deck order
(42_record_sequencer.md R141). -/
def recordBits (msl : BitVec 8) (deck : List (BitVec 6)) : List Bool :=
  fieldBits (difficulty msl) Config.diffW ++ lehmerBits (deck.map BitVec.toNat)

/-- The deck is a permutation of the alphabet (00_scope.md R16, Deck). -/
abbrev IsPermutation (deck : List (BitVec 6)) : Prop := (deck.map BitVec.toNat).Perm (List.range Config.alphaN)

/-- The loop of the reference decoder with `k` fields left to read from bit `p` on and the available indices `avail`,
ascending; `k + 1` symbols remain (95_test_vectors.md section 5, `Decode`). -/
def decodeDeck (bits : List Bool) : Nat → Nat → List Nat → Option (List Nat)
  | 0, _, avail => some (avail.take 1)
  | k + 1, p, avail =>
    let w := clog2 (k + 2)
    let v := fieldAt bits p w
    if k + 2 ≤ v then none
    else (decodeDeck bits k (p + w) (avail.eraseIdx v)).map fun deck => avail[v]?.toList ++ deck

/-- The reference decoder: (msl, deck), or none for an invalid record (95_test_vectors.md section 5, `Decode`). -/
def decodeRecord (bytes : List Byte) : Option (Nat × List Nat) :=
  (decodeDeck (bytesBits bytes) Config.encN Config.diffW (List.range Config.alphaN)).map fun deck =>
    (fieldAt (bytesBits bytes) 0 Config.diffW + Config.diffBias, deck)

end Sys2Proof.Machine
end

