-- ==== Sys2Proof/Safety.lean ====
section
/-! DEFINITION. The terms claims use: the state invariant (10_state.md R25), the open stream as bits (41_bit_packer.md
R115), what packing a pair does to a state, and runs of the machine over a list of command words. -/

namespace Sys2Proof.Safety

open Sys2Proof.Machine

/-- The number of AVAIL's flags that are 0 (10_state.md R25 item 7). -/
def clearedFlags (a : Vector Bool 52) : Nat := (List.range 52).countP fun j => !availFlag a j

/-- R25 item 1: the 8 - CUR unfilled low positions of ACC are zero. -/
abbrev LowClear (s : State) : Prop := s.acc.toNat % 2 ^ (8 - (s.cur : Nat)) = 0

/-- The state invariant, 10_state.md R25 items 1, 2, 4, 5, 6 and 7. Item 3 (PHASE is one of its three values) and N <= 51
of item 7 hold by the types of the fields. -/
structure Inv (s : State) : Prop where
  /-- item 1 -/
  lowClear : LowClear s
  /-- item 2 -/
  streamFits : 8 * s.rbuf.length + (s.cur : Nat) ≤ 256
  /-- item 4 -/
  idleEmpty : s.phase = .idle → s.rbuf = [] ∧ s.acc = 0 ∧ s.cur = 0
  /-- item 5 -/
  causeIffHalt : s.cause ≠ .none ↔ s.phase = .halted
  /-- item 6 -/
  finfoZero : s.phase ≠ .halted → s.finfo = 0
  /-- item 7 -/
  clearedLeN : clearedFlags s.avail ≤ (s.n : Nat)

/-- R25 item 8: exactly N flags of AVAIL are 0, and so exactly 52 - N are 1. -/
abbrev ExactCount (s : State) : Prop := clearedFlags s.avail = (s.n : Nat)

/-- The bits packed into the open stream, first emitted first: the bytes of RBUF, then the filled bits of ACC
(41_bit_packer.md R115). -/
def streamBits (s : State) : List Bool := bytesBits s.rbuf ++ (byteBits s.acc).take s.cur

/-- `t` is `s` with the pair (v, w) packed: the stream is longer by the `w` low bits of `v`, the unfilled bits of ACC stay
zero if they were, and nothing but ACC, CUR and RBUF differs (41_bit_packer.md R111, R115). -/
def Packed (v w : Nat) (s t : State) : Prop :=
  streamBits t = streamBits s ++ fieldBits v w ∧ (LowClear s → LowClear t) ∧
    t = { s with acc := t.acc, cur := t.cur, rbuf := t.rbuf }

/-- Several pairs packed in order (41_bit_packer.md R115). -/
def packAll (pairs : List (Nat × Nat)) (s : State) : State := pairs.foldl (fun s p => pack p.1 p.2 s) s

/-- The host is about to present these words, before whatever else it has pending. -/
def presenting (ws : List Word) (s : State) : State := { s with port := ws.map .command ++ s.port }

/-- The machine run over these words, one step each. -/
def runWords (ws : List Word) (s : State) : Host.Outcome State Fault Refusal :=
  Host.Core.run Sys2Proof.core ws.length (presenting ws s)

/-- The first 51 symbols of the deck are there and are symbols: what 42_record_sequencer.md R140 asks of a deck. -/
abbrev Dealable (deck : List (BitVec 6)) : Prop :=
  Config.encN ≤ deck.length ∧ ∀ sym ∈ deck.take Config.encN, isSymbol sym = true

end Sys2Proof.Safety
end

