-- ==== Sys2Proof/Certificates/Slice0/Obligations.lean ====
section
/-! DEFINITION. The statements about the model, for the provers. `presentNext w s` is the state in which the host presents
the word w next, before whatever is pending in s; so `step (presentNext w s)` is the step that w is, taken in s. That the
host's words stand in State's own field `port`, and that a command leaves what else is pending there as it is, is the
model's choice (log entry 1); a statement that gives a whole next state says it with the rest. -/

open Sys2Proof Sys2Proof.Machine Sys2Proof.Safety

/-! ## Encoding -/

/-- The ten words that 30_encoding.md R84 writes out decode to the operations it gives for them (patterns of R73);
words of each kind of R80 are illegal. -/
def Obligations.WordsOfTheSpecDecode : Prop :=
  decode 0x1000 = .instr .openStream ∧ decode 0x2034 = .instr (.diff 52) ∧ decode 0x20B3 = .instr (.diff 179) ∧
  decode 0x3000 = .instr (.deal 0) ∧ decode 0x3033 = .instr (.deal 51) ∧
  decode 0x301A = .instr (.deal 26) ∧ decode 0x4305 = .instr (.push 3 5) ∧ decode 0x48FF = .instr (.push 8 255) ∧
  decode 0x5000 = .instr .close ∧ decode 0xF000 = .instr .clr ∧
  decode 0x0000 = .illegal .unassignedOpcode ∧ decode 0xFFFF = .illegal .reservedField ∧
  decode 0x2134 = .illegal .reservedField ∧ decode 0x3040 = .illegal .reservedField ∧
  decode 0x4900 = .illegal .widthTooLarge

/-- Decoding the word of a well-formed operation gives that operation, with every operand at every value (R71 to
R73). -/
def Obligations.DecodeOfEncodeIsTheOperation : Prop :=
  ∀ i : Instr, i.wellFormed = true → decode (encode i) = .instr i

/-- A legal word is the word of exactly the operation it decodes to, and that operation is well formed. -/
def Obligations.EncodeOfDecodeIsTheWord : Prop :=
  ∀ (w : Word) (i : Instr), decode w = .instr i → i.wellFormed = true ∧ encode i = w

/-- R80: the illegal words are exactly the five kinds listed, said on the word as a number, and an illegal word
presented in phase IDLE or OPEN raises ILLCMD, and changes nothing else. -/
def Obligations.IllegalWordsAreThoseListedAndRaiseIllcmd : Prop :=
  ∀ w : Word,
    (legal w = false ↔
      (w.toNat / 4096 ∈ [0x0, 0x6, 0x7, 0x8, 0x9, 0xA, 0xB, 0xC, 0xD, 0xE]) ∨
      (w.toNat / 4096 ∈ [0x1, 0x5, 0xF] ∧ w.toNat % 4096 ≠ 0) ∨
      (w.toNat / 4096 = 0x2 ∧ w.toNat / 256 % 16 ≠ 0) ∨
      (w.toNat / 4096 = 0x3 ∧ w.toNat / 64 % 64 ≠ 0) ∨
      (w.toNat / 4096 = 0x4 ∧ 9 ≤ w.toNat / 256 % 16)) ∧
    (legal w = false → ∀ s : State, s.phase ≠ .halted →
      step (presentNext w s) = .next { s with phase := .halted, cause := .illcmd, finfo := w })

/-- R74: a word selects an operation exactly when it matches that operation's row, mask and match, with PUSH's further
condition. -/
def Obligations.MaskAndMatchSelectTheOperation : Prop :=
  ∀ w : Word,
    (decode w = .instr .openStream ↔ w &&& 0xFFFF = 0x1000) ∧
    ((∃ msl, decode w = .instr (.diff msl)) ↔ w &&& 0xFF00 = 0x2000) ∧
    ((∃ sym, decode w = .instr (.deal sym)) ↔ w &&& 0xFFC0 = 0x3000) ∧
    ((∃ wid val, decode w = .instr (.push wid val)) ↔ w &&& 0xF000 = 0x4000 ∧ w.toNat / 256 % 16 ≤ 8) ∧
    (decode w = .instr .close ↔ w &&& 0xFFFF = 0x5000) ∧
    (decode w = .instr .clr ↔ w &&& 0xFFFF = 0xF000)

/-! ## The step, reset and the host's port -/

/-- A legal word presented is executed (R14, R83, R168): the step is exec of the decoded operation, in every phase.
How a word is presented is the model's choice: `presentNext` puts it first in `port` (log entry 1, DESIGN CHOICE), and
the step adds only that it is consumed; `withFetchWord` is the same presentation of a word given as a number whose bit
0 is bit 0 of the word (log entry 11, DEDUCED). -/
def Obligations.StepRunsTheDecodedOperation : Prop :=
  ∀ (w : Word) (i : Instr) (s : State), decode w = .instr i →
    step (presentNext w s) = exec i s ∧ step (s.withFetchWord 16 w.toNat) = exec i s

/-- The model's choice (log entry 2, DEDUCED): with nothing pending the block waits and nothing changes. -/
def Obligations.StepWithNothingPendingChangesNothing : Prop :=
  ∀ s : State, s.port = [] → step s = .next s

/-- R190: hardware reset, in any phase, puts every register in its reset state and leaves OUT alone, as CLR does. That
it is an event of `port` and leaves what else the host has pending (`port := s.port`) is the model's (log entry 3,
DEDUCED; log entry 1, DESIGN CHOICE). -/
def Obligations.HardwareResetPutsEveryRegisterInItsResetState : Prop :=
  ∀ s : State,
    step { s with port := .reset :: s.port } =
      .next { avail := Vector.replicate 52 true, n := 0, acc := 0, cur := 0, rbuf := [], phase := .idle, warn := false,
              cause := .none, finfo := 0, out := s.out, port := s.port } ∧
    step { s with port := .reset :: s.port } = exec .clr s

/-- The state invariant R25 holds in `State.reset`, whose empty OUT and port are the model's choice (log entries 1 and
4); the invariant speaks of neither. -/
def Obligations.InvariantHoldsAtReset : Prop := Inv State.reset

/-- R169 with R25: from every state that meets the invariant, whatever is presented, the step answers a next state,
which meets the invariant; and in every phase CLR leads to IDLE. -/
def Obligations.EveryStepAnswersAndKeepsTheInvariant : Prop :=
  ∀ s : State, Inv s →
    (∃ t, step s = .next t ∧ Inv t) ∧ (∃ t, step (presentNext 0xF000 s) = .next t ∧ t.phase = .idle)

/-- R25 item 8: exactly N flags of AVAIL are 0, and every step keeps that, except the processed DEAL of a symbol that
is not available. -/
def Obligations.UnrepeatedDealsKeepTheCountExact : Prop :=
  ∀ (e : Event) (s t : State), ExactCount s →
    (∀ sym : BitVec 6, sym.toNat < 52 → e = .command (encode (.deal sym)) → s.phase = .opened → s.n ≠ 51 →
      availFlag s.avail sym.toNat = true) →
    step { s with port := e :: s.port } = .next t → ExactCount t

/-! ## The phase machine and the checks -/

/-- R130: the phase after each command in each phase, with the fault raised. -/
def Obligations.PhaseMachineFollowsItsTable : Prop :=
  ∀ (w : Word) (s : State), ∃ t, step (presentNext w s) = .next t ∧
    (s.phase = .idle →
      (decode w = .instr .openStream → t.phase = .opened) ∧
      (decode w = .instr .clr → t.phase = .idle) ∧
      (∀ i, decode w = .instr i → i ≠ .openStream → i ≠ .clr → t.phase = .halted ∧ t.cause = .seq) ∧
      (legal w = false → t.phase = .halted ∧ t.cause = .illcmd)) ∧
    (s.phase = .opened →
      (decode w = .instr .openStream → t.phase = .halted ∧ t.cause = .seq) ∧
      (∀ msl, decode w = .instr (.diff msl) → t.phase = .opened ∨ (t.phase = .halted ∧ t.cause = .overrun)) ∧
      (∀ sym, decode w = .instr (.deal sym) →
        t.phase = .opened ∨ (t.phase = .halted ∧ (t.cause = .badsym ∨ t.cause = .overrun))) ∧
      (∀ wid val, decode w = .instr (.push wid val) →
        t.phase = .opened ∨ (t.phase = .halted ∧ t.cause = .overrun)) ∧
      (decode w = .instr .close → t.phase = .idle) ∧
      (decode w = .instr .clr → t.phase = .idle) ∧
      (legal w = false → t.phase = .halted ∧ t.cause = .illcmd)) ∧
    (s.phase = .halted → t.phase = if w = 0xF000 then .idle else .halted)

/-- R168: the checks are made in the fixed order and the first that applies decides the outcome; if none applies the
command executes, without a fault. -/
def Obligations.ChecksAreMadeInTheFixedOrder : Prop :=
  ∀ (w : Word) (s : State), ∃ t, step (presentNext w s) = .next t ∧
    if s.phase = .halted then (if w = 0xF000 then exec .clr s = .next t else t = s)
    else if legal w = false then t = { s with phase := .halted, cause := .illcmd, finfo := w }
    else if w = 0xF000 then exec .clr s = .next t
    else if (w = 0x1000 ∧ s.phase = .opened) ∨ (w ≠ 0x1000 ∧ s.phase = .idle) then
      t = { s with phase := .halted, cause := .seq, finfo := w }
    else if opField w = 0x3 ∧ s.n = 51 then t = s
    else if opField w = 0x3 ∧ 52 ≤ (symField w).toNat then
      t = { s with phase := .halted, cause := .badsym, finfo := w }
    else if (opField w = 0x2 ∧ 256 < 8 * s.rbuf.length + s.cur + 7) ∨
            (opField w = 0x3 ∧ 256 < 8 * s.rbuf.length + s.cur + clog2 (52 - (s.n : Nat))) ∨
            (opField w = 0x4 ∧ 256 < 8 * s.rbuf.length + s.cur + (widField w).toNat) then
      t = { s with phase := .halted, cause := .overrun, finfo := w }
    else t.phase ≠ .halted ∧ t.cause = s.cause ∧ t.finfo = s.finfo ∧ ∃ i, decode w = .instr i ∧ exec i s = .next t

/-! ## Faults -/

/-- R170: a command that faults, whatever it is, writes PHASE, CAUSE (with the code of its fault) and FINFO (with its
own word) and nothing else; which fault it is, R160 says. -/
def Obligations.FaultEntryWritesPhaseCauseFinfoOnly : Prop :=
  ∀ (w : Word) (s t : State), s.phase ≠ .halted → step (presentNext w s) = .next t → t.phase = .halted →
    ∃ f : Cause, t = { s with phase := .halted, cause := f, finfo := w } ∧
      ((f = .illcmd ∧ causeCode f = 1 ∧ legal w = false) ∨
       (f = .seq ∧ causeCode f = 2 ∧ legal w = true ∧
         ((s.phase = .opened ∧ opField w = 0x1) ∨ (s.phase = .idle ∧ opField w ∈ [0x2, 0x3, 0x4, 0x5]))) ∨
       (f = .badsym ∧ causeCode f = 3 ∧ legal w = true ∧ s.phase = .opened ∧ opField w = 0x3 ∧ s.n ≠ 51 ∧
         52 ≤ (symField w).toNat) ∨
       (f = .overrun ∧ causeCode f = 4 ∧ legal w = true ∧ s.phase = .opened ∧
         ((opField w = 0x2 ∧ 256 < 8 * s.rbuf.length + s.cur + 7) ∨
          (opField w = 0x3 ∧ s.n ≠ 51 ∧ (symField w).toNat < 52 ∧
            256 < 8 * s.rbuf.length + s.cur + clog2 (52 - (s.n : Nat))) ∨
          (opField w = 0x4 ∧ 256 < 8 * s.rbuf.length + s.cur + (widField w).toNat))))

/-- The model's choice for a term the decoder never gives (log entry 8): PUSH with wid in 9 to 15 takes ILLCMD outside
HALT and is ignored in HALT, as its word is. -/
def Obligations.PushOfTooLargeWidthTakesIllcmd : Prop :=
  ∀ (wid : BitVec 4) (val : BitVec 8) (s : State), 8 < wid.toNat →
    (s.phase ≠ .halted → exec (.push wid val) s =
      .next { s with phase := .halted, cause := .illcmd, finfo := encode (.push wid val) }) ∧
    (s.phase = .halted → exec (.push wid val) s = .next s)

/-- R171: in HALT every word but 0xF000, legal or not, changes nothing, and so does every sequence of such words: the
bytes left in RBUF never reach OUT. -/
def Obligations.HaltIgnoresEveryWordButClr : Prop :=
  ∀ s : State, s.phase = .halted →
    (∀ w : Word, w ≠ 0xF000 → step (presentNext w s) = .next s) ∧
    (∀ ws : List Word, 0xF000 ∉ ws → runWords ws s = .next s)

/-! ## The operations -/

/-- R131, R132: OPEN is the word 0x1000. In phase IDLE it begins a fresh stream, and WARN, CAUSE, FINFO and OUT keep
their values; in phase OPEN it raises SEQ and does not restart the stream; in HALT it is ignored. -/
def Obligations.OpenBeginsAFreshStreamFromIdleOnly : Prop :=
  decode 0x1000 = .instr .openStream ∧ ∀ s : State,
    (s.phase = .idle → exec .openStream s =
      .next { s with avail := Vector.replicate 52 true, n := 0, acc := 0, cur := 0, rbuf := [], phase := .opened }) ∧
    (s.phase = .opened → exec .openStream s =
      .next { s with phase := .halted, cause := .seq, finfo := 0x1000 }) ∧
    (s.phase = .halted → exec .openStream s = .next s)

/-- R133: DIFF msl is the word 0x2000 + msl. In phase OPEN, when the pair fits, it packs (msl - 52) mod 128 in 7 bits,
for every msl, and only ACC, CUR and RBUF change; when it does not fit, OVERRUN; in IDLE, SEQ; in HALT it is
ignored. -/
def Obligations.DiffPacksTheDifficulty : Prop :=
  ∀ (msl : BitVec 8) (s : State),
    decode (BitVec.ofNat 16 (0x2000 + msl.toNat)) = .instr (.diff msl) ∧
    (s.phase = .opened → 8 * s.rbuf.length + s.cur + 7 ≤ 256 →
      ∃ t, exec (.diff msl) s = .next t ∧ Packed (((msl.toNat : Int) - 52) % 128).toNat 7 s t) ∧
    (s.phase = .opened → 256 < 8 * s.rbuf.length + s.cur + 7 →
      exec (.diff msl) s = .next { s with phase := .halted, cause := .overrun,
                                          finfo := BitVec.ofNat 16 (0x2000 + msl.toNat) }) ∧
    (s.phase = .idle →
      exec (.diff msl) s = .next { s with phase := .halted, cause := .seq,
                                          finfo := BitVec.ofNat 16 (0x2000 + msl.toNat) }) ∧
    (s.phase = .halted → exec (.diff msl) s = .next s)

/-- R134: for msl in 52 to 179 the field is msl - 52 exactly; below 52 it is msl + 76, above 179 it is msl - 180; in
every case it is the 7 low bits of msl - 52 in 8-bit two's complement. -/
def Obligations.DifficultyIsExactInRangeAndWrapsOutside : Prop :=
  ∀ msl : BitVec 8,
    (52 ≤ msl.toNat → msl.toNat ≤ 179 → difficulty msl + 52 = msl.toNat) ∧
    (msl.toNat < 52 → difficulty msl = msl.toNat + 76) ∧
    (179 < msl.toNat → difficulty msl = msl.toNat - 180) ∧
    difficulty msl = ((msl - 52).extractLsb' 0 7).toNat

/-- R96, with R97, R98 and R99. DEAL sym is the word 0x3000 + sym. In phase OPEN: at N = 51 no effect at all, whatever
the operand; else an operand 52 to 63 raises BADSYM, full stream or not; else, when the field fits, the symbol being
available or not, the number of available symbols below it is packed in clog2(52 - N) bits, its flag is cleared, N
advances, and nothing else changes; else OVERRUN. In IDLE, SEQ; in HALT it is ignored. -/
def Obligations.DealPacksTheRankAndConsumesTheSymbol : Prop :=
  ∀ (sym : BitVec 6) (s : State),
    decode (BitVec.ofNat 16 (0x3000 + sym.toNat)) = .instr (.deal sym) ∧
    (s.phase = .opened → s.n = 51 → exec (.deal sym) s = .next s) ∧
    (s.phase = .opened → s.n ≠ 51 → 52 ≤ sym.toNat →
      exec (.deal sym) s = .next { s with phase := .halted, cause := .badsym,
                                          finfo := BitVec.ofNat 16 (0x3000 + sym.toNat) }) ∧
    (s.phase = .opened → s.n ≠ 51 → sym.toNat < 52 → 8 * s.rbuf.length + s.cur + clog2 (52 - (s.n : Nat)) ≤ 256 →
      ∃ t, exec (.deal sym) s = .next t ∧
        streamBits t = streamBits s ++
          fieldBits ((List.range sym.toNat).countP (availFlag s.avail)) (clog2 (52 - (s.n : Nat))) ∧
        (LowClear s → LowClear t) ∧
        (∀ k, availFlag t.avail k = (availFlag s.avail k && decide (k ≠ sym.toNat))) ∧
        (t.n : Nat) = s.n + 1 ∧
        t = { s with avail := t.avail, n := t.n, acc := t.acc, cur := t.cur, rbuf := t.rbuf }) ∧
    (s.phase = .opened → s.n ≠ 51 → sym.toNat < 52 → 256 < 8 * s.rbuf.length + s.cur + clog2 (52 - (s.n : Nat)) →
      exec (.deal sym) s = .next { s with phase := .halted, cause := .overrun,
                                          finfo := BitVec.ofNat 16 (0x3000 + sym.toNat) }) ∧
    (s.phase = .idle →
      exec (.deal sym) s = .next { s with phase := .halted, cause := .seq,
                                          finfo := BitVec.ofNat 16 (0x3000 + sym.toNat) }) ∧
    (s.phase = .halted → exec (.deal sym) s = .next s)

/-- R116, R119: PUSH wid, val is the word 0x4000 + 256 * wid + val, illegal for wid 9 to 15. With a width 0 to 8, in
phase OPEN, when the pair fits, it packs the wid low bits of val, and only ACC, CUR and RBUF change, AVAIL and N among
what stays; when it does not fit, OVERRUN; in IDLE, SEQ; in HALT it is ignored. -/
def Obligations.PushPacksTheLowBits : Prop :=
  ∀ (wid : BitVec 4) (val : BitVec 8) (s : State),
    (8 < wid.toNat → legal (BitVec.ofNat 16 (0x4000 + 256 * wid.toNat + val.toNat)) = false) ∧ (wid.toNat ≤ 8 →
    decode (BitVec.ofNat 16 (0x4000 + 256 * wid.toNat + val.toNat)) = .instr (.push wid val) ∧
    (s.phase = .opened → 8 * s.rbuf.length + s.cur + wid.toNat ≤ 256 →
      ∃ t, exec (.push wid val) s = .next t ∧ Packed (val.toNat % 2 ^ wid.toNat) wid.toNat s t) ∧
    (s.phase = .opened → 256 < 8 * s.rbuf.length + s.cur + wid.toNat →
      exec (.push wid val) s = .next { s with phase := .halted, cause := .overrun,
                                              finfo := BitVec.ofNat 16 (0x4000 + 256 * wid.toNat + val.toNat) }) ∧
    (s.phase = .idle →
      exec (.push wid val) s = .next { s with phase := .halted, cause := .seq,
                                              finfo := BitVec.ofNat 16 (0x4000 + 256 * wid.toNat + val.toNat) }) ∧
    (s.phase = .halted → exec (.push wid val) s = .next s))

/-- R118: PUSH of width 0, whatever val is, changes no state in phase OPEN, even when the stream holds 256 bits; in
IDLE it raises SEQ. -/
def Obligations.PushOfWidthZeroChangesNothing : Prop :=
  ∀ (val : BitVec 8) (s : State),
    (s.phase = .opened → 8 * s.rbuf.length + s.cur ≤ 256 → exec (.push 0 val) s = .next s) ∧
    (s.phase = .idle →
      exec (.push 0 val) s = .next { s with phase := .halted, cause := .seq, finfo := BitVec.ofNat 16 (0x4000 + val.toNat) })

/-- R136: CLOSE is the word 0x5000. In phase OPEN it never faults: WARN is set when CUR /= 0 and else kept; the
completed bytes are appended to OUT and the pending bits dropped; the packer is emptied; AVAIL, N, CAUSE and FINFO
keep their values. In IDLE, SEQ; in HALT it is ignored. -/
def Obligations.CloseCommitsTheCompletedBytes : Prop :=
  decode 0x5000 = .instr .close ∧ ∀ s : State,
    (s.phase = .opened → exec .close s =
      .next { s with warn := s.warn || decide (s.cur ≠ 0), out := s.out ++ s.rbuf, rbuf := [], acc := 0, cur := 0,
                     phase := .idle }) ∧
    (s.phase = .idle → exec .close s = .next { s with phase := .halted, cause := .seq, finfo := 0x5000 }) ∧
    (s.phase = .halted → exec .close s = .next s)

/-- R57: CLOSE writes RBCNT bytes of OUT at address len(OUT), in RBUF order, and every byte outside them reads as
before. -/
def Obligations.CloseWritesOnlyTheBytesItAppends : Prop :=
  ∀ s : State, s.phase = .opened → ∃ t, exec .close s = .next t ∧
    (∀ j, j < s.rbuf.length → outByte t (commitAddress s + j) = s.rbuf[j]?) ∧
    (∀ a, a < commitAddress s ∨ commitAddress s + s.rbuf.length ≤ a → outByte t a = outByte s a)

/-- R57, R37: every operation but a CLOSE in phase OPEN leaves every byte of OUT as it reads. -/
def Obligations.OnlyCloseWritesOut : Prop :=
  ∀ (i : Instr) (s t : State), ¬(i = .close ∧ s.phase = .opened) → exec i s = .next t →
    ∀ a, outByte t a = outByte s a

/-- R139, R40: CLR is the word 0xF000; in every phase it gives the reset state and leaves OUT alone. That what the
host has pending stays (`port := s.port`) is the model's (log entry 3, DEDUCED; log entry 1, DESIGN CHOICE). -/
def Obligations.ClrGivesTheResetState : Prop :=
  decode 0xF000 = .instr .clr ∧ ∀ s : State, exec .clr s =
    .next { avail := Vector.replicate 52 true, n := 0, acc := 0, cur := 0, rbuf := [], phase := .idle, warn := false,
            cause := .none, finfo := 0, out := s.out, port := s.port }

/-! ## What any event does to one piece of state -/

/-- R37: OUT is append-only; the bytes of RBUF are appended by a CLOSE in phase OPEN, and no other event changes OUT;
OUT is never read: with another OUT the same bytes are appended to it and nothing else is different. -/
def Obligations.OutIsAppendOnly : Prop :=
  ∀ (e : Event) (s t : State), step { s with port := e :: s.port } = .next t →
    (t.out = s.out ++ if e = .command 0x5000 ∧ s.phase = .opened then s.rbuf else []) ∧
    ∀ out : List Byte, step { s with out := out, port := e :: s.port } =
      .next { t with out := out ++ if e = .command 0x5000 ∧ s.phase = .opened then s.rbuf else [] }

/-- R29: WARN is set by a CLOSE in phase OPEN that finds CUR /= 0 and by nothing else, and cleared by CLR and reset
only; it is never read: with another WARN nothing but WARN is different after the step. -/
def Obligations.WarnIsSticky : Prop :=
  ∀ (e : Event) (s t : State), step { s with port := e :: s.port } = .next t →
    (t.warn = if e = .reset ∨ e = .command 0xF000 then false
      else s.warn || decide (e = .command 0x5000 ∧ s.phase = .opened ∧ s.cur ≠ 0)) ∧
    ∀ warn : Bool, ∃ t', step { s with warn := warn, port := e :: s.port } = .next t' ∧ t = { t' with warn := t.warn }

/-- R21: AVAIL changes only by DEAL clearing the dealt symbol's flag, and by OPEN, CLR and reset setting all flags. -/
def Obligations.AvailIsClearedByDealAndRefilledWhole : Prop :=
  ∀ (e : Event) (s t : State), step { s with port := e :: s.port } = .next t →
    t.avail = s.avail ∨
    ((e = .reset ∨ e = .command 0xF000 ∨ (e = .command 0x1000 ∧ s.phase = .idle)) ∧
      ∀ k, k < 52 → availFlag t.avail k = true) ∨
    (∃ sym : BitVec 6, sym.toNat < 52 ∧ e = .command (encode (.deal sym)) ∧ s.phase = .opened ∧
      ∀ k, availFlag t.avail k = (availFlag s.avail k && decide (k ≠ sym.toNat)))

/-- R22: N is set to 0 by OPEN, CLR and reset, advanced by 1 by a DEAL that is processed (not ignored, not faulted),
and changed by nothing else. -/
def Obligations.NCountsTheProcessedDeals : Prop :=
  ∀ (e : Event) (s t : State), step { s with port := e :: s.port } = .next t →
    (t.n : Nat) =
      match e with
      | .reset => 0
      | .command w =>
        if w = 0xF000 ∨ (w = 0x1000 ∧ s.phase = .idle) then 0
        else if s.phase = .opened ∧ s.n ≠ 51 ∧ 0x3000 ≤ w.toNat ∧ w.toNat < 0x3000 + 52 ∧
            8 * s.rbuf.length + s.cur + clog2 (52 - (s.n : Nat)) ≤ 256 then (s.n : Nat) + 1
        else s.n

/-- R34: the three status words as numbers, in every state whose RBUF is within its capacity, and their values at
reset; R167: the two levels. That every other number reads as none is the model's (log entry 12, DEDUCED). -/
def Obligations.StatusWordsShowTheRegisters : Prop :=
  (∀ k, k < 3 → readStatus k State.reset = some 0x0000) ∧
  ∀ s : State, s.rbuf.length ≤ 32 →
    (∃ r0 r1 r2 : Word, readStatus 0 s = some r0 ∧ readStatus 1 s = some r1 ∧ readStatus 2 s = some r2 ∧
      r0.toNat = (match s.phase with | .idle => 0 | .opened => 1 | .halted => 2) + 4 * s.warn.toNat +
        16 * (match s.cause with | .none => 0 | .illcmd => 1 | .seq => 2 | .badsym => 3 | .overrun => 4) +
        256 * (s.cur : Nat) ∧
      r1.toNat = (s.n : Nat) + 256 * s.rbuf.length ∧ r2 = s.finfo) ∧
    (∀ k, 3 ≤ k → readStatus k s = none) ∧
    (faultLevel s = true ↔ s.phase = .halted) ∧ warnLevel s = s.warn

/-! ## The rank encoder's and the packer's laws -/

/-- R12: clog2(r) is the least w with 2^w >= r. -/
def Obligations.Clog2IsTheLeastWidth : Prop :=
  ∀ r : Nat, 1 ≤ r → r ≤ 2 ^ clog2 r ∧ ∀ w, r ≤ 2 ^ w → clog2 r ≤ w

/-- R91, R92: the width schedule in full, and the sum of its 51 widths. -/
def Obligations.WidthScheduleIsTheTable : Prop :=
  (∀ n, n ≤ 50 → fieldWidth n = clog2 (52 - n) ∧ fieldWidth n =
    if n ≤ 19 then 6 else if n ≤ 35 then 5 else if n ≤ 43 then 4 else if n ≤ 47 then 3 else if n ≤ 49 then 2 else 1) ∧
  ((List.range 51).map fieldWidth).sum = 249

/-- R94: the rank of an available symbol is below the number of available symbols; so when exactly N flags are 0 it
fits its field. -/
def Obligations.RankOfAnAvailableSymbolFitsItsField : Prop :=
  ∀ (a : Vector Bool 52) (sym : BitVec 6), sym.toNat < 52 → availFlag a sym.toNat = true →
    rank a sym + 1 ≤ (List.range 52).countP (availFlag a) ∧
    ∀ n, n ≤ 50 → clearedFlags a = n → rank a sym ≤ 51 - n ∧ rank a sym < 2 ^ fieldWidth n

/-- R95: for a permutation, the rank of the symbol at position n, among the flags left by the symbols before it, is
the number of later symbols that are smaller. -/
def Obligations.RanksAreTheLehmerCode : Prop :=
  ∀ (deck : List (BitVec 6)) (n : Nat) (sym : BitVec 6), IsPermutation deck → deck[n]? = some sym →
    rank ((deck.take n).foldl (fun a k => a.setIfInBounds k.toNat false) (Vector.replicate 52 true)) sym =
      (deck.drop (n + 1)).countP fun k => decide (k.toNat < sym.toNat)

/-- R112: only the low w bits of the value are used. -/
def Obligations.PackUsesTheLowBitsOnly : Prop :=
  ∀ (v w : Nat) (s : State), pack v w s = pack (v % 2 ^ w) w s

/-- R114: the closed form of one Pack, with c = CUR, t = c + w and X = ACC[7:8-c] * 2^w + low(v, w), in every state
whose unfilled bits of ACC are zero. -/
def Obligations.PackHasTheClosedForm : Prop :=
  ∀ (v w : Nat) (s : State), w ≤ 8 → LowClear s →
    ∀ (t x : Nat), t = (s.cur : Nat) + w → x = s.acc.toNat / 2 ^ (8 - (s.cur : Nat)) * 2 ^ w + v % 2 ^ w →
    (t < 8 → ((pack v w s).cur : Nat) = t ∧ (pack v w s).acc.toNat = x * 2 ^ (8 - t) ∧ (pack v w s).rbuf = s.rbuf) ∧
    (8 ≤ t → ((pack v w s).cur : Nat) = t - 8 ∧ (pack v w s).acc.toNat = x % 2 ^ (t - 8) * 2 ^ (16 - t) ∧
      ∃ b : Byte, (pack v w s).rbuf = s.rbuf ++ [b] ∧ b.toNat = x / 2 ^ (t - 8))

/-- R115: the stream law. After any pairs packed into an empty packer, the bits of the fields, written one after
another, are the bytes of RBUF and the filled bits of ACC. -/
def Obligations.StreamLaw : Prop :=
  ∀ (pairs : List (Nat × Nat)) (s : State), s.rbuf = [] → s.acc = 0 → s.cur = 0 →
    ∀ (t : State) (bits : List Bool), t = packAll pairs s → bits = pairs.flatMap (fun p => fieldBits p.1 p.2) →
    t.rbuf.length = bits.length / 8 ∧ (t.cur : Nat) = bits.length % 8 ∧
    (∀ j, j < t.rbuf.length → (t.rbuf[j]?.map BitVec.toNat) = some (fieldAt bits (8 * j) 8)) ∧
    t.acc.toNat = fieldAt bits (8 * t.rbuf.length) t.cur * 2 ^ (8 - (t.cur : Nat))

/-! ## Records -/

/-- R142: a canonical record sequence started in phase IDLE, whatever the 51 symbols and whatever msl, repeated
symbols included: 32 bytes and no pending bit before CLOSE, no diagnostic, and CLOSE appends exactly the 32 bytes. -/
def Obligations.EveryRecordIsThirtyTwoBytes : Prop :=
  ∀ (msl : BitVec 8) (deck : List (BitVec 6)) (s : State), s.phase = .idle → Dealable deck →
    ∃ u t, runWords (recordWords msl deck).dropLast s = .next u ∧ u.rbuf.length = 32 ∧ u.cur = 0 ∧
      runWords (recordWords msl deck) s = .next t ∧ t.out = s.out ++ u.rbuf ∧ t.warn = s.warn

/-- R143: the state after a canonical record of a valid deck. STATUS is given for a start with CAUSE NONE, which the
invariant R25 gives every state in phase IDLE. That what else the host has pending stays (`t.port = s.port`) is the
model's (log entry 1, DESIGN CHOICE). -/
def Obligations.StateAfterARecord : Prop :=
  ∀ (msl : BitVec 8) (deck : List (BitVec 6)) (s : State), s.phase = .idle → IsPermutation deck →
    ∃ t, runWords (recordWords msl deck) s = .next t ∧
      t.phase = .idle ∧ t.n = 51 ∧ t.acc = 0 ∧ t.cur = 0 ∧ t.rbuf = [] ∧
      t.warn = s.warn ∧ t.cause = s.cause ∧ t.finfo = s.finfo ∧ t.port = s.port ∧
      t.out.length = s.out.length + 32 ∧ s.out <+: t.out ∧
      (∀ k, k < 52 → (availFlag t.avail k = true ↔ (deck.map BitVec.toNat)[51]? = some k)) ∧
      (s.cause = .none → readStatus 0 t = some (if s.warn then 0x0004 else 0x0000)) ∧
      readStatus 1 t = some 0x0033

/-- R141, with R95: the 32 bytes of a valid deck's record are the difficulty in 7 bits, then the Lehmer digits of the
deck in the widths of the schedule, most-significant bit first, with nothing between. -/
def Obligations.RecordHasTheCanonicalLayout : Prop :=
  ∀ (msl : BitVec 8) (deck : List (BitVec 6)) (s : State), s.phase = .idle → IsPermutation deck →
    ∃ t bytes, runWords (recordWords msl deck) s = .next t ∧ t.out = s.out ++ bytes ∧
      bytesBits bytes = recordBits msl deck

/-- R144: the reference decoder, applied to the bytes a record appends, gives back msl, in 52 to 179, and the deck. -/
def Obligations.DecodingARecordGivesBackTheConfiguration : Prop :=
  ∀ (msl : BitVec 8) (deck : List (BitVec 6)) (s : State), s.phase = .idle → IsPermutation deck →
    52 ≤ msl.toNat → msl.toNat ≤ 179 →
    ∃ t bytes, runWords (recordWords msl deck) s = .next t ∧ t.out = s.out ++ bytes ∧
      decodeRecord bytes = some (msl.toNat, deck.map BitVec.toNat)

/-- 95_test_vectors.md section 5, the converse law: 32 bytes that the reference decoder does not call invalid are the
bytes that the record of what it returns appends. -/
def Obligations.ValidBytesAreTheRecordOfTheirDecoding : Prop :=
  ∀ (bytes : List Byte) (m : Nat) (deck : List Nat) (s : State), bytes.length = 32 → s.phase = .idle →
    decodeRecord bytes = some (m, deck) →
    ∃ t, runWords (recordWords (BitVec.ofNat 8 m) (deck.map (BitVec.ofNat 6))) s = .next t ∧ t.out = s.out ++ bytes

/-- R63: the records of a catalog, presented in order and none faulting (R140), are appended in order: the i-th
32-byte block is the record of the i-th configuration, the bytes that its sequence alone appends from the reset state
with OUT empty. Repeated symbols included. -/
def Obligations.CatalogOrderIsPreserved : Prop :=
  ∀ (configs : List (BitVec 8 × List (BitVec 6))) (s : State), s.phase = .idle → (∀ c ∈ configs, Dealable c.2) →
    ∃ t blocks, runWords (catalogWords configs) s = .next t ∧ t.out = s.out ++ blocks.flatten ∧
      t.out.length = s.out.length + 32 * configs.length ∧
      List.Forall₂ (fun c block => block.length = 32 ∧
        ∃ u, runWords (recordWords c.1 c.2) { State.reset with out := [] } = .next u ∧ u.out = block) configs blocks

/-- R85: RECORD51 leaves the state RECORD leaves, from every state, whatever the deck. -/
def Obligations.FiftySecondSymbolMakesNoDifference : Prop :=
  ∀ (msl : BitVec 8) (deck : List (BitVec 6)) (s : State),
    runWords (record51Words msl deck) s = runWords (recordWords msl deck) s
end

