-- ==== Sys2Proof/Laws/State.lean ====
section
/-! SUPPORT. What each named update of the state does to each field: one lemma per field per update. -/

namespace Sys2Proof.Machine

/-! `diag` -/

@[simp] theorem diag_avail (s : State) : (diag s).avail = s.avail := rfl
@[simp] theorem diag_n (s : State) : (diag s).n = s.n := rfl
@[simp] theorem diag_acc (s : State) : (diag s).acc = s.acc := rfl
@[simp] theorem diag_cur (s : State) : (diag s).cur = s.cur := rfl
@[simp] theorem diag_rbuf (s : State) : (diag s).rbuf = s.rbuf := rfl
@[simp] theorem diag_phase (s : State) : (diag s).phase = s.phase := rfl
@[simp] theorem diag_warn (s : State) : (diag s).warn = true := rfl
@[simp] theorem diag_cause (s : State) : (diag s).cause = s.cause := rfl
@[simp] theorem diag_finfo (s : State) : (diag s).finfo = s.finfo := rfl
@[simp] theorem diag_out (s : State) : (diag s).out = s.out := rfl
@[simp] theorem diag_port (s : State) : (diag s).port = s.port := rfl

/-! `raiseFault` -/

@[simp] theorem raiseFault_avail (f : Cause) (cmd : Word) (s : State) : (raiseFault f cmd s).avail = s.avail := rfl
@[simp] theorem raiseFault_n (f : Cause) (cmd : Word) (s : State) : (raiseFault f cmd s).n = s.n := rfl
@[simp] theorem raiseFault_acc (f : Cause) (cmd : Word) (s : State) : (raiseFault f cmd s).acc = s.acc := rfl
@[simp] theorem raiseFault_cur (f : Cause) (cmd : Word) (s : State) : (raiseFault f cmd s).cur = s.cur := rfl
@[simp] theorem raiseFault_rbuf (f : Cause) (cmd : Word) (s : State) : (raiseFault f cmd s).rbuf = s.rbuf := rfl
@[simp] theorem raiseFault_phase (f : Cause) (cmd : Word) (s : State) : (raiseFault f cmd s).phase = .halted := rfl
@[simp] theorem raiseFault_warn (f : Cause) (cmd : Word) (s : State) : (raiseFault f cmd s).warn = s.warn := rfl
@[simp] theorem raiseFault_cause (f : Cause) (cmd : Word) (s : State) : (raiseFault f cmd s).cause = f := rfl
@[simp] theorem raiseFault_finfo (f : Cause) (cmd : Word) (s : State) : (raiseFault f cmd s).finfo = cmd := rfl
@[simp] theorem raiseFault_out (f : Cause) (cmd : Word) (s : State) : (raiseFault f cmd s).out = s.out := rfl
@[simp] theorem raiseFault_port (f : Cause) (cmd : Word) (s : State) : (raiseFault f cmd s).port = s.port := rfl

/-! `resetRegisters` -/

@[simp] theorem resetRegisters_avail (s : State) : (resetRegisters s).avail = Vector.replicate 52 true := rfl
@[simp] theorem resetRegisters_n (s : State) : (resetRegisters s).n = 0 := rfl
@[simp] theorem resetRegisters_acc (s : State) : (resetRegisters s).acc = 0 := rfl
@[simp] theorem resetRegisters_cur (s : State) : (resetRegisters s).cur = 0 := rfl
@[simp] theorem resetRegisters_rbuf (s : State) : (resetRegisters s).rbuf = [] := rfl
@[simp] theorem resetRegisters_phase (s : State) : (resetRegisters s).phase = .idle := rfl
@[simp] theorem resetRegisters_warn (s : State) : (resetRegisters s).warn = false := rfl
@[simp] theorem resetRegisters_cause (s : State) : (resetRegisters s).cause = .none := rfl
@[simp] theorem resetRegisters_finfo (s : State) : (resetRegisters s).finfo = 0 := rfl
@[simp] theorem resetRegisters_out (s : State) : (resetRegisters s).out = s.out := rfl
@[simp] theorem resetRegisters_port (s : State) : (resetRegisters s).port = s.port := rfl

/-! `consumeSymbol` -/

@[simp] theorem consumeSymbol_avail (sym : BitVec 6) (s : State) : (consumeSymbol sym s).avail = s.avail.setIfInBounds sym.toNat false := rfl
@[simp] theorem consumeSymbol_n (sym : BitVec 6) (s : State) : (consumeSymbol sym s).n = s.n + 1 := rfl
@[simp] theorem consumeSymbol_acc (sym : BitVec 6) (s : State) : (consumeSymbol sym s).acc = s.acc := rfl
@[simp] theorem consumeSymbol_cur (sym : BitVec 6) (s : State) : (consumeSymbol sym s).cur = s.cur := rfl
@[simp] theorem consumeSymbol_rbuf (sym : BitVec 6) (s : State) : (consumeSymbol sym s).rbuf = s.rbuf := rfl
@[simp] theorem consumeSymbol_phase (sym : BitVec 6) (s : State) : (consumeSymbol sym s).phase = s.phase := rfl
@[simp] theorem consumeSymbol_warn (sym : BitVec 6) (s : State) : (consumeSymbol sym s).warn = s.warn := rfl
@[simp] theorem consumeSymbol_cause (sym : BitVec 6) (s : State) : (consumeSymbol sym s).cause = s.cause := rfl
@[simp] theorem consumeSymbol_finfo (sym : BitVec 6) (s : State) : (consumeSymbol sym s).finfo = s.finfo := rfl
@[simp] theorem consumeSymbol_out (sym : BitVec 6) (s : State) : (consumeSymbol sym s).out = s.out := rfl
@[simp] theorem consumeSymbol_port (sym : BitVec 6) (s : State) : (consumeSymbol sym s).port = s.port := rfl

/-! `beginStream` -/

@[simp] theorem beginStream_avail (s : State) : (beginStream s).avail = Vector.replicate 52 true := rfl
@[simp] theorem beginStream_n (s : State) : (beginStream s).n = 0 := rfl
@[simp] theorem beginStream_acc (s : State) : (beginStream s).acc = 0 := rfl
@[simp] theorem beginStream_cur (s : State) : (beginStream s).cur = 0 := rfl
@[simp] theorem beginStream_rbuf (s : State) : (beginStream s).rbuf = [] := rfl
@[simp] theorem beginStream_phase (s : State) : (beginStream s).phase = .opened := rfl
@[simp] theorem beginStream_warn (s : State) : (beginStream s).warn = s.warn := rfl
@[simp] theorem beginStream_cause (s : State) : (beginStream s).cause = s.cause := rfl
@[simp] theorem beginStream_finfo (s : State) : (beginStream s).finfo = s.finfo := rfl
@[simp] theorem beginStream_out (s : State) : (beginStream s).out = s.out := rfl
@[simp] theorem beginStream_port (s : State) : (beginStream s).port = s.port := rfl

/-! `commit` -/

@[simp] theorem commit_avail (s : State) : (commit s).avail = s.avail := rfl
@[simp] theorem commit_n (s : State) : (commit s).n = s.n := rfl
@[simp] theorem commit_acc (s : State) : (commit s).acc = 0 := rfl
@[simp] theorem commit_cur (s : State) : (commit s).cur = 0 := rfl
@[simp] theorem commit_rbuf (s : State) : (commit s).rbuf = [] := rfl
@[simp] theorem commit_phase (s : State) : (commit s).phase = .idle := rfl
@[simp] theorem commit_warn (s : State) : (commit s).warn = s.warn := rfl
@[simp] theorem commit_cause (s : State) : (commit s).cause = s.cause := rfl
@[simp] theorem commit_finfo (s : State) : (commit s).finfo = s.finfo := rfl
@[simp] theorem commit_out (s : State) : (commit s).out = memWrite s.out (commitAddress s) s.rbuf := rfl
@[simp] theorem commit_port (s : State) : (commit s).port = s.port := rfl

/-! `presentNext` -/

@[simp] theorem presentNext_avail (w : Word) (s : State) : (presentNext w s).avail = s.avail := rfl
@[simp] theorem presentNext_n (w : Word) (s : State) : (presentNext w s).n = s.n := rfl
@[simp] theorem presentNext_acc (w : Word) (s : State) : (presentNext w s).acc = s.acc := rfl
@[simp] theorem presentNext_cur (w : Word) (s : State) : (presentNext w s).cur = s.cur := rfl
@[simp] theorem presentNext_rbuf (w : Word) (s : State) : (presentNext w s).rbuf = s.rbuf := rfl
@[simp] theorem presentNext_phase (w : Word) (s : State) : (presentNext w s).phase = s.phase := rfl
@[simp] theorem presentNext_warn (w : Word) (s : State) : (presentNext w s).warn = s.warn := rfl
@[simp] theorem presentNext_cause (w : Word) (s : State) : (presentNext w s).cause = s.cause := rfl
@[simp] theorem presentNext_finfo (w : Word) (s : State) : (presentNext w s).finfo = s.finfo := rfl
@[simp] theorem presentNext_out (w : Word) (s : State) : (presentNext w s).out = s.out := rfl
@[simp] theorem presentNext_port (w : Word) (s : State) : (presentNext w s).port = .command w :: s.port := rfl

/-! `finalize`: only WARN can change (41_bit_packer.md R120) -/

@[simp] theorem finalize_avail (s : State) : (finalize s).avail = s.avail := by
  unfold finalize; split <;> rfl
@[simp] theorem finalize_n (s : State) : (finalize s).n = s.n := by
  unfold finalize; split <;> rfl
@[simp] theorem finalize_acc (s : State) : (finalize s).acc = s.acc := by
  unfold finalize; split <;> rfl
@[simp] theorem finalize_cur (s : State) : (finalize s).cur = s.cur := by
  unfold finalize; split <;> rfl
@[simp] theorem finalize_rbuf (s : State) : (finalize s).rbuf = s.rbuf := by
  unfold finalize; split <;> rfl
@[simp] theorem finalize_phase (s : State) : (finalize s).phase = s.phase := by
  unfold finalize; split <;> rfl
@[simp] theorem finalize_warn (s : State) : (finalize s).warn = (s.warn || decide (s.cur ≠ 0)) := by
  unfold finalize; split <;> simp_all
@[simp] theorem finalize_cause (s : State) : (finalize s).cause = s.cause := by
  unfold finalize; split <;> rfl
@[simp] theorem finalize_finfo (s : State) : (finalize s).finfo = s.finfo := by
  unfold finalize; split <;> rfl
@[simp] theorem finalize_out (s : State) : (finalize s).out = s.out := by
  unfold finalize; split <;> rfl
@[simp] theorem finalize_port (s : State) : (finalize s).port = s.port := by
  unfold finalize; split <;> rfl

/-! `packBit` and `pack`: only ACC, CUR and RBUF can change (41_bit_packer.md R111) -/

@[simp] theorem packBit_avail (b : Bool) (s : State) : (packBit b s).avail = s.avail := by
  unfold packBit; split <;> rfl
@[simp] theorem pack_avail (v w : Nat) (s : State) : (pack v w s).avail = s.avail := by
  induction w generalizing s with
  | zero => rfl
  | succ w ih => simp [pack, ih]
@[simp] theorem packBit_n (b : Bool) (s : State) : (packBit b s).n = s.n := by
  unfold packBit; split <;> rfl
@[simp] theorem pack_n (v w : Nat) (s : State) : (pack v w s).n = s.n := by
  induction w generalizing s with
  | zero => rfl
  | succ w ih => simp [pack, ih]
@[simp] theorem packBit_phase (b : Bool) (s : State) : (packBit b s).phase = s.phase := by
  unfold packBit; split <;> rfl
@[simp] theorem pack_phase (v w : Nat) (s : State) : (pack v w s).phase = s.phase := by
  induction w generalizing s with
  | zero => rfl
  | succ w ih => simp [pack, ih]
@[simp] theorem packBit_warn (b : Bool) (s : State) : (packBit b s).warn = s.warn := by
  unfold packBit; split <;> rfl
@[simp] theorem pack_warn (v w : Nat) (s : State) : (pack v w s).warn = s.warn := by
  induction w generalizing s with
  | zero => rfl
  | succ w ih => simp [pack, ih]
@[simp] theorem packBit_cause (b : Bool) (s : State) : (packBit b s).cause = s.cause := by
  unfold packBit; split <;> rfl
@[simp] theorem pack_cause (v w : Nat) (s : State) : (pack v w s).cause = s.cause := by
  induction w generalizing s with
  | zero => rfl
  | succ w ih => simp [pack, ih]
@[simp] theorem packBit_finfo (b : Bool) (s : State) : (packBit b s).finfo = s.finfo := by
  unfold packBit; split <;> rfl
@[simp] theorem pack_finfo (v w : Nat) (s : State) : (pack v w s).finfo = s.finfo := by
  induction w generalizing s with
  | zero => rfl
  | succ w ih => simp [pack, ih]
@[simp] theorem packBit_out (b : Bool) (s : State) : (packBit b s).out = s.out := by
  unfold packBit; split <;> rfl
@[simp] theorem pack_out (v w : Nat) (s : State) : (pack v w s).out = s.out := by
  induction w generalizing s with
  | zero => rfl
  | succ w ih => simp [pack, ih]
@[simp] theorem packBit_port (b : Bool) (s : State) : (packBit b s).port = s.port := by
  unfold packBit; split <;> rfl
@[simp] theorem pack_port (v w : Nat) (s : State) : (pack v w s).port = s.port := by
  induction w generalizing s with
  | zero => rfl
  | succ w ih => simp [pack, ih]

/-- MemWrite at len(OUT) is an append (00_scope.md R13). -/
theorem memWrite_at_length (out v : List Byte) : memWrite out out.length v = out ++ v := by
  simp [memWrite]

/-- The commit appends RBUF to OUT (42_record_sequencer.md R136). -/
theorem commit_out_append (s : State) : (commit s).out = s.out ++ s.rbuf :=
  memWrite_at_length s.out s.rbuf

/-! The cells of OUT. -/

theorem outCells_addresses (s : State) : (outCells s).map Prod.fst = List.range s.out.length := by
  simp [outCells, List.range_eq_range', Function.comp_def]

/-- OUT in any state is in the canonical form, so every operation keeps it (20_memory.md R60). -/
theorem outCells_wf (s : State) : Memory.wf (outCells s) := by
  rw [Memory.wf, outCells_addresses]; exact List.pairwise_lt_range

end Sys2Proof.Machine
end

