-- ==== Sys2Proof/Laws/Pack.lean ====
section
/-! SUPPORT. What Pack does, said once: it appends the field's bits to the stream and touches nothing else
(41_bit_packer.md R111, R115). Later proofs cite `pack_packed` and `streamLength_pack` and do not unfold Pack. -/

namespace Sys2Proof.Safety

open Sys2Proof.Machine

@[simp] theorem fieldBits_length (v w : Nat) : (fieldBits v w).length = w := by
  induction w with
  | zero => rfl
  | succ w ih => simp [fieldBits, ih]

@[simp] theorem byteBits_length (b : Byte) : (byteBits b).length = 8 := fieldBits_length _ _

@[simp] theorem bytesBits_nil : bytesBits [] = [] := rfl

theorem bytesBits_append (xs ys : List Byte) : bytesBits (xs ++ ys) = bytesBits xs ++ bytesBits ys := by
  simp [bytesBits]

@[simp] theorem bytesBits_length (bs : List Byte) : (bytesBits bs).length = 8 * bs.length := by
  induction bs with
  | nil => rfl
  | cons b bs ih => simp [bytesBits, List.flatMap_cons] at *; omega

theorem bytesBits_singleton (b : Byte) : bytesBits [b] = byteBits b := by simp [bytesBits]

/-- The open stream has SBITS bits (10_state.md R26). -/
@[simp] theorem streamBits_length (s : State) : (streamBits s).length = streamLength s := by
  simp [streamBits, streamLength]

/-- One bit of a byte written. -/
theorem setBit_testBit (a : Byte) (k j : Nat) (b : Bool) (hk : k < 8) :
    (setBit a k b).toNat.testBit j = if j = k then b else a.toNat.testBit j := by
  rw [BitVec.testBit_toNat, BitVec.testBit_toNat]
  by_cases h : j = k
  · subst h; cases b <;> simp [setBit, hk]
  · by_cases hj : j < 8
    · cases b <;> simp [setBit, h, hj, BitVec.getElem_twoPow]
    · simp [h, BitVec.getLsbD_of_ge _ _ (Nat.le_of_not_lt hj)]

/-- A bit written at the cursor follows the bits before it. -/
theorem take_byteBits_setBit (c : Fin 8) (b : Bool) (a : Byte) :
    (byteBits (setBit a (7 - c) b)).take (c + 1) = (byteBits a).take c ++ [b] := by
  fin_cases c <;> simp [byteBits, fieldBits, setBit_testBit, -Nat.testBit_zero]

/-- A bit written at the cursor leaves the positions below it zero. -/
theorem setBit_mod (c : Fin 8) (b : Bool) (a : Byte) (h : a.toNat % 2 ^ (8 - (c : Nat)) = 0) :
    (setBit a (7 - c) b).toNat % 2 ^ (7 - (c : Nat)) = 0 := by
  revert c b a; decide +revert

/-- One pass of Pack's loop appends its bit to the stream. -/
theorem packBit_streamBits (b : Bool) (s : State) : streamBits (packBit b s) = streamBits s ++ [b] := by
  by_cases hc : s.cur = 7
  · have hb := take_byteBits_setBit s.cur b s.acc
    have h7 : (s.cur : Nat) + 1 = 8 := by rw [hc]; rfl
    rw [h7, List.take_of_length_le (by simp)] at hb
    simp [packBit, hc, streamBits, bytesBits_append, bytesBits_singleton] at hb ⊢
    rw [hb]
  · have hlt : (s.cur : Nat) < 7 := by
      have := s.cur.isLt
      have : (s.cur : Nat) ≠ 7 := fun e => hc (Fin.ext e)
      omega
    have h1 : ((s.cur + 1 : Fin 8) : Nat) = (s.cur : Nat) + 1 := by
      rw [Fin.val_add]; show ((s.cur : Nat) + 1) % 8 = _; omega
    simp only [packBit, if_neg hc, streamBits, h1, take_byteBits_setBit, List.append_assoc]

/-- One pass of Pack's loop keeps the unfilled bits of ACC zero. -/
theorem packBit_lowClear (b : Bool) (s : State) (h : LowClear s) : LowClear (packBit b s) := by
  by_cases hc : s.cur = 7
  · simp [LowClear, packBit, hc]
  · have hlt : (s.cur : Nat) < 7 := by
      have := s.cur.isLt
      have : (s.cur : Nat) ≠ 7 := fun e => hc (Fin.ext e)
      omega
    have h1 : ((s.cur + 1 : Fin 8) : Nat) = (s.cur : Nat) + 1 := by
      rw [Fin.val_add]; show ((s.cur : Nat) + 1) % 8 = _; omega
    simp only [LowClear, packBit, if_neg hc, h1]
    rw [show 8 - ((s.cur : Nat) + 1) = 7 - (s.cur : Nat) by omega]
    exact setBit_mod s.cur b s.acc h

/-- Everything one pass of Pack's loop does. -/
theorem packBit_frame (b : Bool) (s : State) :
    packBit b s = { s with acc := (packBit b s).acc, cur := (packBit b s).cur, rbuf := (packBit b s).rbuf } := by
  unfold packBit; split <;> rfl

/-- Everything Pack does (41_bit_packer.md R111): the field's bits are appended to the stream, the unfilled bits of ACC
stay zero, nothing but ACC, CUR and RBUF changes. -/
theorem pack_packed (v w : Nat) (s : State) : Packed v w s (pack v w s) := by
  induction w generalizing s with
  | zero => exact ⟨by simp [pack, fieldBits], id, rfl⟩
  | succ w ih =>
    obtain ⟨hbits, hlow, hframe⟩ := ih (packBit (v.testBit w) s)
    refine ⟨?_, fun h => hlow (packBit_lowClear _ _ h), ?_⟩
    · simp [pack, fieldBits, hbits, packBit_streamBits]
    · rw [pack, hframe, packBit_frame]

/-- Pack makes the stream longer by the field's width (10_state.md R26). -/
@[simp] theorem streamLength_pack (v w : Nat) (s : State) : streamLength (pack v w s) = streamLength s + w := by
  have h := congrArg List.length (pack_packed v w s).1
  simpa using h

/-- A pair that fits is packed. -/
theorem packOrOverrun_of_fits {cmd : Word} {v w : Nat} {also : State → State} {s : State} (h : fits w s = true) :
    packOrOverrun cmd v w also s = pack v w (also s) := by simp [packOrOverrun, h]

/-- A pair that does not fit raises OVERRUN and nothing else. -/
theorem packOrOverrun_of_not_fits {cmd : Word} {v w : Nat} {also : State → State} {s : State} (h : fits w s = false) :
    packOrOverrun cmd v w also s = raiseFault .overrun cmd s := by simp [packOrOverrun, h]

end Sys2Proof.Safety
end

