-- ==== Sys2Proof/Laws/Step.lean ====
section
/-! SUPPORT. What a step can do, said once: which event it takes, and which part of the machine answers. -/

namespace Sys2Proof.Machine

/-- Nothing pending: the block waits. -/
theorem step_of_port_nil {s : State} (h : s.port = []) : step s = .next s := by simp [step, h]

/-- A pending event is consumed and has its effect. -/
theorem step_of_port_cons {s : State} {e : Event} {rest : List Event} (h : s.port = e :: rest) :
    step s = takeEvent e { s with port := rest } := by simp [step, h]

/-- Outside HALT a word is decoded and run. -/
theorem presentWord_of_not_halted (w : Word) {s : State} (h : s.phase ≠ .halted) : presentWord w s = runWord w s := by
  unfold presentWord; split <;> simp_all

/-- In HALT a word is compared with 0xF000 only. -/
theorem presentWord_of_halted (w : Word) {s : State} (h : s.phase = .halted) :
    presentWord w s = if w = 0xF000 then exec .clr s else .next s := by simp [presentWord, h]

/-- A legal word outside HALT is its operation. -/
theorem presentWord_of_decode {w : Word} {i : Instr} {s : State} (hd : decode w = .instr i) (h : s.phase ≠ .halted) :
    presentWord w s = exec i s := by simp [presentWord_of_not_halted w h, runWord, hd]

/-- The phase check, one case for each phase (60_exceptions.md R168). -/
theorem whenOpen_cases (i : Instr) (s effect : State) :
    (s.phase = .halted ∧ whenOpen i s effect = s) ∨
    (s.phase = .idle ∧ whenOpen i s effect = raiseFault .seq (encode i) s) ∨
    (s.phase = .opened ∧ whenOpen i s effect = effect) := by
  unfold whenOpen; cases s.phase <;> simp

/-! Each arm of `exec` is its meaning. -/

@[simp] theorem exec_openStream (s : State) : exec .openStream s = execOpen s := rfl
@[simp] theorem exec_diff (msl : BitVec 8) (s : State) : exec (.diff msl) s = execDiff msl s := rfl
@[simp] theorem exec_deal (sym : BitVec 6) (s : State) : exec (.deal sym) s = execDeal sym s := rfl
@[simp] theorem exec_push (wid : BitVec 4) (val : BitVec 8) (s : State) :
    exec (.push wid val) s = execPush wid val s := rfl
@[simp] theorem exec_close (s : State) : exec .close s = execClose s := rfl
@[simp] theorem exec_clr (s : State) : exec .clr s = execClr s := rfl

/-- What a packing command ends in, one case for each outcome of the capacity check. -/
theorem packOrOverrun_cases (cmd : Word) (v w : Nat) (also : State → State) (s : State) :
    (fits w s = true ∧ packOrOverrun cmd v w also s = pack v w (also s)) ∨
    (fits w s = false ∧ packOrOverrun cmd v w also s = raiseFault .overrun cmd s) := by
  unfold packOrOverrun; cases fits w s <;> simp

/-- DEAL in phase OPEN, one case for each outcome (40_rank_encoder.md R96 to R98). -/
theorem dealInOpen_cases (sym : BitVec 6) (s : State) :
    (s.n = 51 ∧ dealInOpen sym s = s) ∨
    (s.n ≠ 51 ∧ isSymbol sym = false ∧ dealInOpen sym s = raiseFault .badsym (encode (.deal sym)) s) ∨
    (s.n ≠ 51 ∧ isSymbol sym = true ∧ fits (fieldWidth s.n) s = false ∧
      dealInOpen sym s = raiseFault .overrun (encode (.deal sym)) s) ∨
    (s.n ≠ 51 ∧ isSymbol sym = true ∧ fits (fieldWidth s.n) s = true ∧
      dealInOpen sym s = pack (rank s.avail sym) (fieldWidth s.n) (consumeSymbol sym s)) := by
  by_cases hn : s.n = 51
  · simp [dealInOpen, hn]
  · cases hs : isSymbol sym <;> cases hf : fits (fieldWidth s.n) s <;> simp [dealInOpen, packOrOverrun, hn, hs, hf]

/-- Every operation answers a next state, and leaves the host's pending events as they are. -/
theorem exec_answers_next (i : Instr) (s : State) : ∃ t, exec i s = .next t ∧ t.port = s.port := by
  cases i with
  | openStream => simp only [exec_openStream, execOpen]; cases s.phase <;> exact ⟨_, rfl, rfl⟩
  | diff msl =>
    refine ⟨_, rfl, ?_⟩
    rcases whenOpen_cases (.diff msl) s _ with ⟨-, h⟩ | ⟨-, h⟩ | ⟨-, h⟩ <;> rw [h]
    · rfl
    · rcases packOrOverrun_cases (encode (.diff msl)) (difficulty msl) Config.diffW id s with ⟨-, h⟩ | ⟨-, h⟩ <;>
        simp [h]
  | deal sym =>
    refine ⟨_, rfl, ?_⟩
    rcases whenOpen_cases (.deal sym) s _ with ⟨-, h⟩ | ⟨-, h⟩ | ⟨-, h⟩ <;> rw [h]
    · rfl
    · rcases dealInOpen_cases sym s with ⟨-, h⟩ | ⟨-, -, h⟩ | ⟨-, -, -, h⟩ | ⟨-, -, -, h⟩ <;> simp [h]
  | push wid val =>
    simp only [exec_push, execPush]
    split
    · refine ⟨_, rfl, ?_⟩
      rcases whenOpen_cases (.push wid val) s _ with ⟨-, h⟩ | ⟨-, h⟩ | ⟨-, h⟩ <;> rw [h]
      · rfl
      · rcases packOrOverrun_cases (encode (.push wid val)) val.toNat wid.toNat id s with ⟨-, h⟩ | ⟨-, h⟩ <;>
          simp [pushInOpen, h]
    · split <;> exact ⟨_, rfl, rfl⟩
  | close =>
    refine ⟨_, rfl, ?_⟩
    rcases whenOpen_cases .close s _ with ⟨-, h⟩ | ⟨-, h⟩ | ⟨-, h⟩ <;> rw [h]
    · rfl
    · simp
  | clr => exact ⟨_, rfl, rfl⟩

end Sys2Proof.Machine
end

