-- ==== Sys2Proof/Laws/Command.lean ====
section
/-! SUPPORT. The small lemmas of the operand checks, and what one command word can do, said once: the cases of
60_exceptions.md R168, one constructor each. Later proofs split on `WordCase` and do not unfold a meaning. -/

namespace Sys2Proof.Machine

/-- The capacity check as an inequality (41_bit_packer.md R113). -/
theorem fits_iff (w : Nat) (s : State) : fits w s = true ↔ 8 * s.rbuf.length + s.cur + w ≤ 256 := by
  unfold fits; rw [decide_eq_true_iff]; rfl

theorem fits_eq_false_iff (w : Nat) (s : State) : fits w s = false ↔ 256 < 8 * s.rbuf.length + s.cur + w := by
  rw [← Bool.not_eq_true, fits_iff]; omega

theorem isSymbol_iff (sym : BitVec 6) : isSymbol sym = true ↔ sym.toNat < 52 := by simp [isSymbol]

theorem isSymbol_eq_false_iff (sym : BitVec 6) : isSymbol sym = false ↔ 52 ≤ sym.toNat := by simp [isSymbol]

/-- AVAIL after one flag is cleared. -/
theorem availFlag_setIfInBounds (a : Vector Bool 52) (j k : Nat) (hj : j < 52) :
    availFlag (a.setIfInBounds j false) k = (availFlag a k && decide (k ≠ j)) := by
  unfold availFlag
  rw [Vector.getElem?_setIfInBounds]
  by_cases h : j = k
  · subst h; simp [hj]
  · simp [h, Ne.symm h]

/-- AVAIL with every flag set. -/
theorem availFlag_replicate_true (k : Nat) : availFlag (Vector.replicate 52 true) k = decide (k < 52) := by
  unfold availFlag
  rw [Vector.getElem?_replicate]
  split <;> simp_all

/-- N advances without wrapping when it is not 51 (10_state.md R22). -/
theorem n_add_one (n : Fin 52) (h : n ≠ 51) : ((n + 1 : Fin 52) : Nat) = n + 1 := by
  have := n.isLt
  have : (n : Nat) ≠ 51 := fun e => h (Fin.ext e)
  rw [Fin.val_add]; show ((n : Nat) + 1) % 52 = _; omega

/-- What the command word `w` does in state `s` (60_exceptions.md R168): the state it leads to, case by case. -/
inductive WordCase (w : Word) (s : State) : State → Prop
  /-- CLR, in every phase. -/
  | cleared (hw : w = 0xF000) : WordCase w s (resetRegisters s)
  /-- In HALT anything else is ignored. -/
  | ignored (hp : s.phase = .halted) (hw : w ≠ 0xF000) : WordCase w s s
  | illegal (hp : s.phase ≠ .halted) (r : IllegalReason) (hd : decode w = .illegal r) :
      WordCase w s (raiseFault .illcmd w s)
  | opened (hp : s.phase = .idle) (hw : w = 0x1000) : WordCase w s (beginStream s)
  | openedTwice (hp : s.phase = .opened) (hw : w = 0x1000) : WordCase w s (raiseFault .seq w s)
  /-- DIFF, DEAL, PUSH or CLOSE in IDLE. -/
  | outOfPhase (hp : s.phase = .idle) (i : Instr) (hd : decode w = .instr i) (h1 : i ≠ .openStream) (h2 : i ≠ .clr) :
      WordCase w s (raiseFault .seq w s)
  | closed (hp : s.phase = .opened) (hw : w = 0x5000) : WordCase w s (commit (finalize s))
  | dealIgnored (hp : s.phase = .opened) (sym : BitVec 6) (hd : decode w = .instr (.deal sym)) (hn : s.n = 51) :
      WordCase w s s
  | badSymbol (hp : s.phase = .opened) (sym : BitVec 6) (hd : decode w = .instr (.deal sym)) (hn : s.n ≠ 51)
      (hs : 52 ≤ sym.toNat) : WordCase w s (raiseFault .badsym w s)
  | dealOverrun (hp : s.phase = .opened) (sym : BitVec 6) (hd : decode w = .instr (.deal sym)) (hn : s.n ≠ 51)
      (hs : sym.toNat < 52) (hf : fits (fieldWidth s.n) s = false) : WordCase w s (raiseFault .overrun w s)
  | dealt (hp : s.phase = .opened) (sym : BitVec 6) (hd : decode w = .instr (.deal sym)) (hn : s.n ≠ 51)
      (hs : sym.toNat < 52) (hf : fits (fieldWidth s.n) s = true) :
      WordCase w s (pack (rank s.avail sym) (fieldWidth s.n) (consumeSymbol sym s))
  | diffOverrun (hp : s.phase = .opened) (msl : BitVec 8) (hd : decode w = .instr (.diff msl))
      (hf : fits 7 s = false) : WordCase w s (raiseFault .overrun w s)
  | diffed (hp : s.phase = .opened) (msl : BitVec 8) (hd : decode w = .instr (.diff msl)) (hf : fits 7 s = true) :
      WordCase w s (pack (difficulty msl) 7 s)
  | pushOverrun (hp : s.phase = .opened) (wid : BitVec 4) (val : BitVec 8) (hd : decode w = .instr (.push wid val))
      (hf : fits wid.toNat s = false) : WordCase w s (raiseFault .overrun w s)
  | pushed (hp : s.phase = .opened) (wid : BitVec 4) (val : BitVec 8) (hd : decode w = .instr (.push wid val))
      (hf : fits wid.toNat s = true) : WordCase w s (pack val.toNat wid.toNat s)

/-- Every word, in every state, is one of the cases, once a legal word is known to be the word of its operation. -/
theorem presentWord_case (w : Word) (s : State) (henc : ∀ i, decode w = .instr i → encode i = w) :
    ∃ t, presentWord w s = .next t ∧ WordCase w s t := by
  have hclr : decode 0xF000 = .instr .clr := by decide
  by_cases hp : s.phase = .halted
  · by_cases hw : w = 0xF000
    · exact ⟨_, by rw [presentWord_of_halted w hp, if_pos hw]; rfl, .cleared hw⟩
    · exact ⟨_, by rw [presentWord_of_halted w hp, if_neg hw], .ignored hp hw⟩
  cases hd : decode w with
  | illegal r =>
    exact ⟨_, by rw [presentWord_of_not_halted w hp, runWord, hd], .illegal hp r hd⟩
  | instr i =>
    rw [presentWord_of_decode hd hp]
    have hw := henc i hd
    cases i with
    | openStream =>
      cases h : s.phase with
      | halted => exact absurd h hp
      | idle => exact ⟨_, by simp [execOpen, h], .opened h hw.symm⟩
      | opened => exact ⟨_, by simp [execOpen, h, hw], .openedTwice h hw.symm⟩
    | diff msl =>
      refine ⟨_, rfl, ?_⟩
      rcases whenOpen_cases (.diff msl) s (packOrOverrun (encode (.diff msl)) (difficulty msl) 7 id s) with
        ⟨h, -⟩ | ⟨h, e⟩ | ⟨h, e⟩
      · exact absurd h hp
      · rw [e, hw]; exact .outOfPhase h _ hd (by simp) (by simp)
      · rw [e, hw]
        rcases packOrOverrun_cases w (difficulty msl) 7 id s with ⟨hf, e⟩ | ⟨hf, e⟩ <;> rw [e]
        · exact .diffed h msl hd hf
        · exact .diffOverrun h msl hd hf
    | deal sym =>
      refine ⟨_, rfl, ?_⟩
      rcases whenOpen_cases (.deal sym) s (dealInOpen sym s) with ⟨h, -⟩ | ⟨h, e⟩ | ⟨h, e⟩
      · exact absurd h hp
      · rw [e, hw]; exact .outOfPhase h _ hd (by simp) (by simp)
      · rw [e]
        rcases dealInOpen_cases sym s with ⟨hn, e⟩ | ⟨hn, hs, e⟩ | ⟨hn, hs, hf, e⟩ | ⟨hn, hs, hf, e⟩ <;> rw [e]
        · exact .dealIgnored h sym hd hn
        · rw [hw]; exact .badSymbol h sym hd hn ((isSymbol_eq_false_iff sym).1 hs)
        · rw [hw]; exact .dealOverrun h sym hd hn ((isSymbol_iff sym).1 hs) hf
        · exact .dealt h sym hd hn ((isSymbol_iff sym).1 hs) hf
    | push wid val =>
      by_cases hwid : wid.toNat ≤ Config.widMax
      · refine ⟨whenOpen (.push wid val) s (pushInOpen wid val s), by simp [execPush, hwid], ?_⟩
        rcases whenOpen_cases (.push wid val) s (pushInOpen wid val s) with ⟨h, -⟩ | ⟨h, e⟩ | ⟨h, e⟩
        · exact absurd h hp
        · rw [e, hw]; exact .outOfPhase h _ hd (by simp) (by simp)
        · rw [e, pushInOpen, hw]
          rcases packOrOverrun_cases w val.toNat wid.toNat id s with ⟨hf, e⟩ | ⟨hf, e⟩ <;> rw [e]
          · exact .pushed h wid val hd hf
          · exact .pushOverrun h wid val hd hf
      · exfalso
        simp only [decode, decodeFormatZ, decodeDiff, decodeDeal, decodePush] at hd
        repeat' split at hd
        all_goals first
          | exact Decoded.noConfusion hd
          | (injection hd with e; injection e with e1 e2; subst e1; exact hwid ‹_›)
          | (injection hd with e; cases e)
    | close =>
      refine ⟨_, rfl, ?_⟩
      rcases whenOpen_cases .close s (commit (finalize s)) with ⟨h, -⟩ | ⟨h, e⟩ | ⟨h, e⟩
      · exact absurd h hp
      · rw [e, hw]; exact .outOfPhase h _ hd (by simp) (by simp)
      · rw [e]; exact .closed h hw.symm
    | clr => exact ⟨_, rfl, .cleared hw.symm⟩

end Sys2Proof.Machine
end

