-- ==== Sys2Proof/Laws/PerInstr.lean ====
section
/-! SUPPORT. Per-instruction families. MatchMask: the word of an operation matches its row of 30_encoding.md R74,
`cmd AND mask = match`. -/

namespace Sys2Proof.Laws.MatchMask

/-- The mask of the operation's row (30_encoding.md R74). -/
def mask : Instr → Word
  | .openStream => 0xFFFF
  | .diff _ => 0xFF00
  | .deal _ => 0xFFC0
  | .push _ _ => 0xF000
  | .close => 0xFFFF
  | .clr => 0xFFFF

/-- The match value of the operation's row (30_encoding.md R74). -/
def pattern : Instr → Word
  | .openStream => 0x1000
  | .diff _ => 0x2000
  | .deal _ => 0x3000
  | .push _ _ => 0x4000
  | .close => 0x5000
  | .clr => 0xF000

/-- The operation's word, under its row's mask, is its row's match value. -/
def Statement (i : Instr) : Prop := encode i &&& mask i = pattern i

theorem openStream : Statement .openStream := by unfold Statement; decide
theorem diff (msl : BitVec 8) : Statement (.diff msl) := by
  unfold Statement; revert msl; decide
theorem deal (sym : BitVec 6) : Statement (.deal sym) := by
  unfold Statement; revert sym; decide
theorem push (wid : BitVec 4) (val : BitVec 8) : Statement (.push wid val) := by
  have hmask : (0xF000#16) = 0xF#4 ++ 0#4 ++ 0#8 := by decide
  have hpat : (0x4000#16) = 0x4#4 ++ 0#4 ++ 0#8 := by decide
  simp only [Statement, encode, mask, pattern]
  show _ &&& 0xF000#16 = 0x4000#16
  rw [hmask, hpat, BitVec.and_append, BitVec.and_append]
  simp
theorem close : Statement .close := by unfold Statement; decide
theorem clr : Statement .clr := by unfold Statement; decide

end Sys2Proof.Laws.MatchMask
end

