-- ==== Sys2Proof/Laws/Run.lean ====
section
/-! SUPPORT. Runs over a list of words. No operation reads or writes what the host has yet to present, so a run is the
words presented one after another (20_memory.md R62). -/

namespace Sys2Proof.Safety

open Sys2Proof.Machine

/-- The state with other pending events. -/
def withPort (p : List Event) (s : State) : State := { s with port := p }

@[simp] theorem withPort_port_self (s : State) : withPort s.port s = s := rfl
@[simp] theorem withPort_withPort (p q : List Event) (s : State) : withPort p (withPort q s) = withPort p s := rfl
@[simp] theorem withPort_cur (p : List Event) (s : State) : (withPort p s).cur = s.cur := rfl
@[simp] theorem withPort_n (p : List Event) (s : State) : (withPort p s).n = s.n := rfl
@[simp] theorem withPort_avail (p : List Event) (s : State) : (withPort p s).avail = s.avail := rfl
@[simp] theorem withPort_phase (p : List Event) (s : State) : (withPort p s).phase = s.phase := rfl
@[simp] theorem withPort_port (p : List Event) (s : State) : (withPort p s).port = p := rfl

theorem packBit_withPort (p : List Event) (b : Bool) (s : State) :
    packBit b (withPort p s) = withPort p (packBit b s) := by
  by_cases h : s.cur = 7 <;> simp [packBit, withPort, h]

theorem pack_withPort (p : List Event) (v w : Nat) (s : State) : pack v w (withPort p s) = withPort p (pack v w s) := by
  induction w generalizing s with
  | zero => rfl
  | succ w ih => rw [pack, pack, packBit_withPort, ih]

theorem packOrOverrun_withPort (p : List Event) (cmd : Word) (v w : Nat) (also : State → State) (s : State)
    (h : also (withPort p s) = withPort p (also s)) :
    packOrOverrun cmd v w also (withPort p s) = withPort p (packOrOverrun cmd v w also s) := by
  have hf : fits w (withPort p s) = fits w s := rfl
  unfold packOrOverrun
  rw [hf, h, pack_withPort]
  split <;> rfl

theorem whenOpen_withPort (p : List Event) (i : Instr) (s e : State) :
    whenOpen i (withPort p s) (withPort p e) = withPort p (whenOpen i s e) := by
  unfold whenOpen; rw [withPort_phase]; cases s.phase <;> rfl

theorem dealInOpen_withPort (p : List Event) (sym : BitVec 6) (s : State) :
    dealInOpen sym (withPort p s) = withPort p (dealInOpen sym s) := by
  have h := packOrOverrun_withPort p (encode (.deal sym)) (rank s.avail sym) (fieldWidth s.n) (consumeSymbol sym) s rfl
  by_cases hn : s.n = 51
  · simp [dealInOpen, hn]
  · cases hs : isSymbol sym
    · simp [dealInOpen, hn, hs]; rfl
    · simpa [dealInOpen, hn, hs] using h

theorem finalize_withPort (p : List Event) (s : State) : finalize (withPort p s) = withPort p (finalize s) := by
  by_cases h : s.cur = 0
  · simp [finalize, h]
  · simp [finalize, h]; rfl

/-- What an operation does to a state with other pending events. -/
theorem exec_withPort {i : Instr} {s t : State} (p : List Event) (h : exec i s = .next t) :
    exec i (withPort p s) = .next (withPort p t) := by
  cases i with
  | openStream =>
    simp only [exec_openStream, execOpen, withPort_phase] at h ⊢
    cases hp : s.phase <;> simp only [hp] at h ⊢ <;> cases h <;> rfl
  | diff msl =>
    cases h
    simp only [exec_diff, execDiff, packOrOverrun_withPort p _ _ _ id s rfl, whenOpen_withPort]
  | deal sym =>
    cases h
    simp only [exec_deal, execDeal, dealInOpen_withPort, whenOpen_withPort]
  | push wid val =>
    have hopen : whenOpen (.push wid val) (withPort p s) (pushInOpen wid val (withPort p s)) =
        withPort p (whenOpen (.push wid val) s (pushInOpen wid val s)) := by
      simp only [pushInOpen, packOrOverrun_withPort p _ _ _ id s rfl, whenOpen_withPort]
    by_cases hw : wid.toNat ≤ Config.widMax
    · simp only [exec_push, execPush, if_pos hw] at h ⊢
      cases h; rw [hopen]
    · by_cases hp : s.phase = .halted
      · simp only [exec_push, execPush, if_neg hw, if_pos hp, withPort_phase] at h ⊢
        cases h; simp [hp]
      · simp only [exec_push, execPush, if_neg hw, if_neg hp] at h ⊢
        cases h; simp [hp]; rfl
  | close =>
    cases h
    have : commit (finalize (withPort p s)) = withPort p (commit (finalize s)) := by rw [finalize_withPort]; rfl
    simp only [exec_close, execClose, this, whenOpen_withPort]
  | clr => cases h; rfl

/-- What a word does to a state with other pending events. -/
theorem presentWord_withPort {w : Word} {s t : State} (p : List Event) (h : presentWord w s = .next t) :
    presentWord w (withPort p s) = .next (withPort p t) := by
  by_cases hp : s.phase = .halted
  · rw [presentWord_of_halted w hp] at h
    rw [presentWord_of_halted w (by simpa using hp)]
    split at h
    · rw [if_pos (by assumption)]; exact exec_withPort p h
    · rw [if_neg (by assumption)]; cases h; rfl
  · rw [presentWord_of_not_halted w hp] at h
    rw [presentWord_of_not_halted w (by simpa using hp)]
    unfold runWord at *
    split at h
    · cases h; rfl
    · exact exec_withPort p h

/-- Every word answers a next state, and leaves the pending events as they are. -/
theorem presentWord_answers_next (w : Word) (s : State) : ∃ t, presentWord w s = .next t ∧ t.port = s.port := by
  by_cases hp : s.phase = .halted
  · rw [presentWord_of_halted w hp]
    split
    · exact exec_answers_next .clr s
    · exact ⟨s, rfl, rfl⟩
  · rw [presentWord_of_not_halted w hp]
    unfold runWord
    split
    · exact ⟨_, rfl, rfl⟩
    · exact exec_answers_next _ s

/-- One step of a run, of any machine. -/
theorem run_succ (M : Host.Core) (k : Nat) {s t : M.State} (h : M.step s = .next t) : M.run (k + 1) s = M.run k t := by
  simp [Host.Core.run, h]

@[simp] theorem runWords_nil (s : State) : runWords [] s = .next s := rfl

/-- A run's first word is presented, and the rest is run from where it leads. -/
theorem runWords_cons {w : Word} {s t : State} (ws : List Word) (h : presentWord w s = .next t) :
    runWords (w :: ws) s = runWords ws t := by
  obtain ⟨t', ht', hport⟩ := presentWord_answers_next w s
  obtain rfl : t' = t := by rw [ht'] at h; cases h; rfl
  have h1 := presentWord_withPort (ws.map Event.command ++ s.port) h
  have h2 : step (presenting (w :: ws) s) = .next (presenting ws t') := by
    show presentWord w (withPort (ws.map Event.command ++ s.port) s) = _
    rw [h1, presenting, hport]; rfl
  exact run_succ Sys2Proof.core ws.length h2

/-- A run of two lists is the run of the second from where the first leads. -/
theorem runWords_append {xs : List Word} {s t : State} (ys : List Word) (h : runWords xs s = .next t) :
    runWords (xs ++ ys) s = runWords ys t := by
  induction xs generalizing s with
  | nil => cases h; rfl
  | cons x xs ih =>
    obtain ⟨u, hu, -⟩ := presentWord_answers_next x s
    rw [runWords_cons xs hu] at h
    rw [List.cons_append, runWords_cons _ hu]
    exact ih h

/-- Every run of words answers a next state. -/
theorem runWords_answers_next (ws : List Word) (s : State) : ∃ t, runWords ws s = .next t := by
  induction ws generalizing s with
  | nil => exact ⟨s, rfl⟩
  | cons w ws ih =>
    obtain ⟨u, hu, -⟩ := presentWord_answers_next w s
    rw [runWords_cons ws hu]
    exact ih u

end Sys2Proof.Safety
end

