-- ==== Sys2Proof/Machine/Assembler.lean ====
section
/-! DEFINITION. The spec's way of writing command sequences (30_encoding.md R84, R85): one command or pseudo-operation per
line, read into the command words the host presents. No part of the block; the machine uses none of it. -/

namespace Sys2Proof.Machine

/-- A blank between the parts of a line (log entry 14). -/
def isBlank (c : Char) : Bool := c = ' ' || c = '\t'

/-- The line without the blanks at its ends. -/
def trimBlanks (cs : List Char) : List Char := ((cs.dropWhile isBlank).reverse.dropWhile isBlank).reverse

/-- The value of a digit in base 10 or 16 (log entry 14: both cases of A to F). -/
def digitValue (base : Nat) (c : Char) : Option Nat :=
  let n := c.toNat
  let v := if 48 ≤ n ∧ n ≤ 57 then n - 48 else if 65 ≤ n ∧ n ≤ 70 then n - 55 else if 97 ≤ n ∧ n ≤ 102 then n - 87 else base
  if v < base then some v else none

/-- A number written with at least one digit of the base. -/
def digitsValue (base : Nat) (cs : List Char) : Option Nat :=
  if cs = [] then none else cs.foldlM (fun acc c => (digitValue base c).map (base * acc + ·)) 0

/-- A number "in decimal or with `0x`" (30_encoding.md R84). -/
def parseNumber : List Char → Option Nat
  | '0' :: 'x' :: cs => digitsValue 16 cs
  | cs => digitsValue 10 cs

/-- An operand of a `w`-bit field (30_encoding.md R72). -/
def parseField (w : Nat) (cs : List Char) : Option (BitVec w) :=
  (parseNumber cs).bind fun v => if v < 2 ^ w then some (BitVec.ofNat w v) else none

/-- The symbol operand of DEAL: a number 0 to 63 or one alphabet character in single quotes (30_encoding.md R84). -/
def parseSymbol : List Char → Option (BitVec 6)
  | ['\'', c, '\''] => symbolIndex c
  | cs => parseField 6 cs

/-- A deck: alphabet characters in double quotes (30_encoding.md R85). -/
def parseDeck : List Char → Option (List (BitVec 6))
  | '"' :: cs => if cs.getLast? = some '"' then deckOfChars cs.dropLast else none
  | _ => none

/-- The parts of an operand list, between its commas. -/
def splitCommas : List Char → List (List Char)
  | [] => [[]]
  | c :: cs =>
    if c = ',' then [] :: splitCommas cs
    else match splitCommas cs with
      | [] => [[c]]
      | part :: parts => (c :: part) :: parts

/-- The operands of a command, none after the mnemonic being the empty list. -/
def parseOperands (cs : List Char) : List (List Char) :=
  if trimBlanks cs = [] then [] else (splitCommas cs).map trimBlanks

/-- The word of an operation that has one: its operands are in range (30_encoding.md R72). -/
def wordOf (i : Instr) : Option (List Word) := if i.wellFormed then some [encode i] else none

/-- The words of one mnemonic with its operands; none if it is no command or pseudo-operation of 30_encoding.md R84, R85. A
RECORD takes a deck of 52 characters and a RECORD51 one of 51. -/
def assembleCommand (mnemonic : List Char) (operands : List (List Char)) : Option (List Word) :=
  if mnemonic = ['O', 'P', 'E', 'N'] ∧ operands = [] then wordOf .openStream
  else if mnemonic = ['C', 'L', 'O', 'S', 'E'] ∧ operands = [] then wordOf .close
  else if mnemonic = ['C', 'L', 'R'] ∧ operands = [] then wordOf .clr
  else match operands with
    | [a] =>
      if mnemonic = ['D', 'I', 'F', 'F'] then (parseField 8 a).bind fun msl => wordOf (.diff msl)
      else if mnemonic = ['D', 'E', 'A', 'L'] then (parseSymbol a).bind fun sym => wordOf (.deal sym)
      else if mnemonic = ['D', 'E', 'C', 'K'] then (parseDeck a).map deckWords
      else none
    | [a, b] =>
      if mnemonic = ['P', 'U', 'S', 'H'] then
        (parseField 4 a).bind fun wid => (parseField 8 b).bind fun val => wordOf (.push wid val)
      else if mnemonic = ['R', 'E', 'C', 'O', 'R', 'D'] then
        (parseField 8 a).bind fun msl => (parseDeck b).bind fun deck =>
          if deck.length = Config.alphaN then some (recordWords msl deck) else none
      else if mnemonic = ['R', 'E', 'C', 'O', 'R', 'D', '5', '1'] then
        (parseField 8 a).bind fun msl => (parseDeck b).bind fun deck =>
          if deck.length = Config.encN then some (record51Words msl deck) else none
      else none
    | _ => none

/-- The words of one line. A `;` begins a comment (30_encoding.md R84); a line with nothing else gives no word (log entry
14). -/
def assembleLine (line : List Char) : Option (List Word) :=
  let text := trimBlanks (line.takeWhile (· ≠ ';'))
  if text = [] then some []
  else assembleCommand (text.takeWhile (! isBlank ·)) (parseOperands (text.dropWhile (! isBlank ·)))

/-- The words of a listing, line by line. -/
def assemble (lines : List (List Char)) : Option (List Word) := (lines.mapM assembleLine).map List.flatten

end Sys2Proof.Machine
end

