-- ==== Sys2Proof/Tests/Slice0.lean ====
section
/-! SUPPORT. The model's own tests: the checks of WellFormed refuse ill-formed terms; one word of each operation, written
out from 30_encoding.md R73, decodes to it; at most two single steps for each operation, with the results the spec gives;
and for each statement with hypotheses a state and operands that meet them, for each clause at the ends of its range. -/

namespace Sys2Proof.Tests

open Sys2Proof.Machine Sys2Proof.Safety

/-! ## States and decks -/

/-- A state in phase OPEN whose stream holds 8 * len + cur zero bits. -/
def opened (len : Nat) (cur : Fin 8) (n : Fin 52) : State :=
  { State.reset with phase := .opened, rbuf := List.replicate len 0, cur := cur, n := n }

/-- A state in HALT after BADSYM, in mid-record (95_test_vectors.md P4). -/
def halted : State :=
  { State.reset with phase := .halted, cause := .badsym, finfo := 0x3034, rbuf := [0x10], acc := 0x80, cur := 5, n := 1,
                     avail := (Vector.replicate 52 true).setIfInBounds 16 false }

/-- The identity deck of 95_test_vectors.md S1. -/
def identityDeck : List (BitVec 6) := (List.range 52).map (BitVec.ofNat 6)

/-- The reversed deck of 95_test_vectors.md S2. -/
def reversedDeck : List (BitVec 6) := identityDeck.reverse

/-- The outcome is a next state with the property. -/
def after (o : Host.Outcome State Fault Refusal) (p : State → Bool) : Bool :=
  match o with
  | .next t => p t
  | .fault _ => false
  | .refused _ => false

/-! ## WellFormed -/

theorem test_wellFormed_refuses_width_9 : (Instr.push 9 0).wellFormed = false := by decide
theorem test_wellFormed_refuses_width_15 : (Instr.push 15 0xFF).wellFormed = false := by decide
theorem test_wellFormed_accepts_width_8 : (Instr.push 8 0xFF).wellFormed = true := by decide

/-! ## Decoding: words written out from the patterns of 30_encoding.md R73 -/

theorem test_decode_OPEN : decode 0b0001000000000000 = .instr .openStream := by decide
theorem test_decode_DIFF : decode 0b0010000010110011 = .instr (.diff 179) := by decide
theorem test_decode_DEAL : decode 0b0011000000110011 = .instr (.deal 51) := by decide
theorem test_decode_DEAL_not_a_symbol : decode 0b0011000000111111 = .instr (.deal 63) := by decide
theorem test_decode_PUSH : decode 0b0100011000101010 = .instr (.push 6 0x2A) := by decide
theorem test_decode_PUSH_width_8 : decode 0b0100100011111111 = .instr (.push 8 0xFF) := by decide
theorem test_decode_CLOSE : decode 0b0101000000000000 = .instr .close := by decide
theorem test_decode_CLR : decode 0b1111000000000000 = .instr .clr := by decide

/-- The illegal words named in 30_encoding.md R80, and the ends of its bullets. -/
theorem test_decode_illegal :
    decode 0x0000 = .illegal .unassignedOpcode ∧ decode 0x6000 = .illegal .unassignedOpcode ∧
    decode 0xEFFF = .illegal .unassignedOpcode ∧ decode 0x1001 = .illegal .reservedField ∧
    decode 0x5800 = .illegal .reservedField ∧ decode 0xFFFF = .illegal .reservedField ∧
    decode 0x2100 = .illegal .reservedField ∧ decode 0x3040 = .illegal .reservedField ∧
    decode 0x4900 = .illegal .widthTooLarge ∧ decode 0x4FFF = .illegal .widthTooLarge := by decide

theorem test_decodeTableWord : decodeTableWord 16 0x3033 = some (.deal 51) ∧ decodeTableWord 16 0x4900 = none := by decide

/-- 30_encoding.md R84: the symbol 'a' is index 26; R85: RECORD is 55 command words, RECORD51 54. -/
theorem test_pseudo_operations :
    symbolIndex 'a' = some 26 ∧ symbolIndex 'z' = some 51 ∧ symbolIndex '#' = none ∧
    (recordWords 52 identityDeck).length = 55 ∧ (record51Words 52 identityDeck).length = 54 ∧
    (recordWords 52 identityDeck).take 4 = [0x1000, 0x2034, 0x3000, 0x3001] := by decide

/-- The examples of 30_encoding.md R84. -/
theorem test_assembler :
    assembleLine ['O', 'P', 'E', 'N'] = some [0x1000] ∧
    assembleLine ['D', 'I', 'F', 'F', ' ', '1', '7', '9', ' ', ';', ' ', 'x'] = some [0x20B3] ∧
    assembleLine ['D', 'E', 'A', 'L', ' ', '\'', 'z', '\''] = some [0x3033] ∧
    assembleLine ['D', 'E', 'A', 'L', ' ', '2', '6'] = some [0x301A] ∧
    assembleLine ['P', 'U', 'S', 'H', ' ', '8', ',', ' ', '0', 'x', 'F', 'F'] = some [0x48FF] ∧
    assembleLine ['D', 'E', 'C', 'K', ' ', '"', 'A', 'z', '"'] = some [0x3000, 0x3033] ∧
    assembleLine ['D', 'E', 'A', 'L', ' ', '6', '4'] = none ∧
    assembleLine ['P', 'U', 'S', 'H', ' ', '9', ',', '0'] = none := by decide

/-! ## Single steps. Results from the examples of the rules and from 95_test_vectors.md. -/

/-- 42_record_sequencer.md R131. -/
theorem test_OPEN_from_reset : after (exec .openStream State.reset) (fun t =>
    decide (statusWord t = 0x0001 ∧ posWord t = 0x0000)) = true := by decide

/-- 42_record_sequencer.md R132. -/
theorem test_OPEN_twice : after (exec .openStream (opened 0 7 0)) (fun t =>
    decide (statusWord t = 0x0722 ∧ t.finfo = 0x1000)) = true := by decide

/-- 42_record_sequencer.md R133. -/
theorem test_DIFF_179 : after (exec (.diff 179) (opened 0 0 0)) (fun t =>
    decide (t.cur = 7 ∧ t.acc = 0xFE ∧ t.rbuf = [])) = true := by decide

/-- 42_record_sequencer.md R134: 51 wraps to 127; here across a byte boundary. -/
theorem test_DIFF_51 : after (exec (.diff 51) (opened 0 5 0)) (fun t =>
    decide (t.cur = 4 ∧ t.acc = 0xF0 ∧ t.rbuf = [0x07])) = true := by decide

/-- 40_rank_encoder.md R96: v = 2 in 6 bits, 000010. -/
theorem test_DEAL_C : after (exec (.deal 2) (opened 0 0 0)) (fun t =>
    decide (t.cur = 6 ∧ t.acc = 0x08 ∧ t.n = 1 ∧ availFlag t.avail 2 = false ∧ availFlag t.avail 3 = true)) = true := by
  decide

/-- 40_rank_encoder.md R99: after 'A' twenty times, 'z' packs the low 5 bits of 50, 10010. -/
theorem test_DEAL_after_repeated_symbol :
    after (exec (.deal 51) { opened 15 0 20 with avail := (Vector.replicate 52 true).setIfInBounds 0 false })
      (fun t => decide (t.cur = 5 ∧ t.acc = 0x90 ∧ t.n = 21)) = true := by decide

/-- 41_bit_packer.md R116: 101 pending, then 101010. -/
theorem test_PUSH_6_2A : after (exec (.push 6 0x2A) { opened 0 3 0 with acc := 0xA0 }) (fun t =>
    decide (t.rbuf = [0xB5] ∧ t.cur = 1 ∧ t.acc = 0x00)) = true := by decide

/-- 41_bit_packer.md R119: 111. -/
theorem test_PUSH_3_FF : after (exec (.push 3 0xFF) (opened 0 0 0)) (fun t =>
    decide (t.rbuf = [] ∧ t.cur = 3 ∧ t.acc = 0xE0)) = true := by decide

/-- 42_record_sequencer.md R138. -/
theorem test_CLOSE_misaligned : after (exec .close (opened 1 5 1)) (fun t =>
    decide (t.out = [0x00] ∧ statusWord t = 0x0004 ∧ posWord t = 0x0001)) = true := by decide

/-- 42_record_sequencer.md R136: aligned, WARN left as it was, OUT extended. -/
theorem test_CLOSE_aligned : after (exec .close { opened 0 0 0 with rbuf := [0xFF], out := [0x01], warn := true }) (fun t =>
    decide (t.out = [0x01, 0xFF] ∧ statusWord t = 0x0004 ∧ t.rbuf = [])) = true := by decide

/-- 42_record_sequencer.md R139. -/
theorem test_CLR_in_HALT : after (exec .clr { halted with out := [0x01] }) (fun t =>
    decide (statusWord t = 0 ∧ posWord t = 0 ∧ t.finfo = 0 ∧ t.out = [0x01] ∧ availFlag t.avail 16 = true)) = true := by
  decide

/-- 95_test_vectors.md P4, words 3 and 4: the fault's status words, and CLOSE ignored in HALT. -/
theorem test_HALT : statusWord halted = 0x0532 ∧ posWord halted = 0x0101 ∧
    after (step (presentNext 0x5000 halted)) (fun t => decide (t = halted)) = true := by decide

/-- 60_exceptions.md R168: an illegal word in IDLE raises ILLCMD; DEAL 60 in IDLE raises SEQ, not BADSYM. -/
theorem test_priority :
    after (step (presentNext 0x0000 State.reset)) (fun t => decide (t.cause = .illcmd)) = true ∧
    after (step (presentNext 0x303C State.reset)) (fun t => decide (t.cause = .seq)) = true := by decide

/-- The first step after reset with a word placed runs it. -/
theorem test_withFetchWord : after (step (State.reset.withFetchWord 16 0x1000)) (fun t =>
    decide (t.phase = .opened ∧ t.port = [])) = true := by decide

/-- OUT in `State.reset` lists nothing, and is in canonical form. -/
theorem test_reset_memory : outCells State.reset = [] ∧ Memory.wf (outCells State.reset) := by decide

/-! ## Witnesses: states and operands that meet the hypotheses of the statements -/

theorem test_witness_DecodeOfEncodeIsTheOperation :
    Instr.openStream.wellFormed = true ∧ (Instr.diff 255).wellFormed = true ∧ (Instr.deal 63).wellFormed = true ∧
    (Instr.push 0 255).wellFormed = true ∧ (Instr.push 8 0).wellFormed = true ∧ Instr.close.wellFormed = true ∧
    Instr.clr.wellFormed = true := by decide

theorem test_witness_EncodeOfDecodeIsTheWord :
    decode 0x48FF = .instr (.push 8 255) ∧ decode 0xF000 = .instr .clr := by decide

theorem test_witness_IllegalWordsAreThoseListedAndRaiseIllcmd :
    legal 0x0000 = false ∧ legal 0xFFFF = false ∧ legal 0x2100 = false ∧ legal 0x3FC0 = false ∧ legal 0x4900 = false ∧
    State.reset.phase ≠ .halted ∧ (opened 32 0 51).phase ≠ .halted := by decide

theorem test_witness_StepRunsTheDecodedOperation :
    decode 0x3033 = .instr (.deal 51) ∧ decode 0x4000 = .instr (.push 0 0) := by decide

theorem test_witness_StepWithNothingPendingChangesNothing : State.reset.port = [] := by decide

/-- A state of each phase meets the invariant. -/
theorem test_witness_EveryStepAnswersAndKeepsTheInvariant :
    Inv State.reset ∧ Inv (opened 32 0 51) ∧ Inv (opened 31 7 50) ∧ Inv halted :=
  ⟨by constructor <;> decide, by constructor <;> decide, by constructor <;> decide, by constructor <;> decide⟩

/-- The DEAL of an available symbol, and of symbol 51. -/
theorem test_witness_UnrepeatedDealsKeepTheCountExact :
    ExactCount (opened 0 0 0) ∧
    (∀ sym : BitVec 6, sym.toNat < 52 → Event.command (encode (.deal 51)) = .command (encode (.deal sym)) →
      (opened 0 0 0).phase = .opened → (opened 0 0 0).n ≠ 51 → availFlag (opened 0 0 0).avail sym.toNat = true) ∧
    ∃ t, step { opened 0 0 0 with port := .command (encode (.deal 51)) :: (opened 0 0 0).port } = .next t :=
  ⟨by decide, fun sym h _ _ _ => by simp [opened, State.reset, availFlag_replicate_true, h], ⟨_, rfl⟩⟩

/-- A state of each phase, and a word for each column of the table of 42_record_sequencer.md R130. -/
theorem test_witness_PhaseMachineFollowsItsTable :
    State.reset.phase = .idle ∧ (opened 0 0 0).phase = .opened ∧ halted.phase = .halted ∧
    decode 0x1000 = .instr .openStream ∧ decode 0x20FF = .instr (.diff 255) ∧ decode 0x303F = .instr (.deal 63) ∧
    decode 0x4801 = .instr (.push 8 1) ∧ decode 0x5000 = .instr .close ∧ decode 0xF000 = .instr .clr ∧
    legal 0x0000 = false := by decide

/-- A command that faults, one for each fault. -/
theorem test_witness_FaultEntryWritesPhaseCauseFinfoOnly :
    after (step (presentNext 0x0000 State.reset)) (fun t => decide (t.phase = .halted ∧ t.cause = .illcmd)) = true ∧
    after (step (presentNext 0x5000 State.reset)) (fun t => decide (t.phase = .halted ∧ t.cause = .seq)) = true ∧
    after (step (presentNext 0x3034 (opened 0 0 50))) (fun t => decide (t.phase = .halted ∧ t.cause = .badsym)) = true ∧
    after (step (presentNext 0x3000 (opened 32 0 50))) (fun t => decide (t.phase = .halted ∧ t.cause = .overrun)) = true ∧
    State.reset.phase ≠ .halted ∧ (opened 0 0 50).phase ≠ .halted ∧ (opened 32 0 50).phase ≠ .halted := by decide

theorem test_witness_PushOfTooLargeWidthTakesIllcmd :
    8 < (9#4).toNat ∧ 8 < (15#4).toNat ∧ State.reset.phase ≠ .halted ∧ halted.phase = .halted := by decide

theorem test_witness_HaltIgnoresEveryWordButClr :
    halted.phase = .halted ∧ (0x5000 : Word) ≠ 0xF000 ∧ (0xF000 : Word) ∉ [0x5000, 0x1000, 0xF001] := by decide

theorem test_witness_OpenBeginsAFreshStreamFromIdleOnly :
    State.reset.phase = .idle ∧ (opened 1 3 2).phase = .opened ∧ halted.phase = .halted := by decide

/-- 249 bits, the most that leaves room, and 250. -/
theorem test_witness_DiffPacksTheDifficulty :
    ((opened 31 1 0).phase = .opened ∧ 8 * (opened 31 1 0).rbuf.length + (opened 31 1 0).cur + 7 ≤ 256) ∧
    ((opened 31 2 0).phase = .opened ∧ 256 < 8 * (opened 31 2 0).rbuf.length + (opened 31 2 0).cur + 7) ∧
    State.reset.phase = .idle ∧ halted.phase = .halted := by decide

/-- 51, 52, 179, 180 and the ends of the operand's range. -/
theorem test_witness_DifficultyIsExactInRangeAndWrapsOutside :
    (52 ≤ (52#8).toNat ∧ (52#8).toNat ≤ 179) ∧ (52 ≤ (179#8).toNat ∧ (179#8).toNat ≤ 179) ∧ (51#8).toNat < 52 ∧
    (0#8).toNat < 52 ∧ 179 < (180#8).toNat ∧ 179 < (255#8).toNat := by decide

/-- N = 50 and 51; symbols 51, 52 and 63; 250 and 251 bits at N = 0, 255 and 256 at N = 50. -/
theorem test_witness_DealPacksTheRankAndConsumesTheSymbol :
    ((opened 0 0 51).phase = .opened ∧ (opened 0 0 51).n = 51) ∧
    ((opened 0 0 50).phase = .opened ∧ (opened 0 0 50).n ≠ 51 ∧ 52 ≤ (52#6).toNat ∧ 52 ≤ (63#6).toNat) ∧
    ((opened 31 2 0).phase = .opened ∧ (opened 31 2 0).n ≠ 51 ∧ (51#6).toNat < 52 ∧
      8 * (opened 31 2 0).rbuf.length + (opened 31 2 0).cur + clog2 (52 - ((opened 31 2 0).n : Nat)) ≤ 256) ∧
    ((opened 31 7 50).phase = .opened ∧ (opened 31 7 50).n ≠ 51 ∧ (0#6).toNat < 52 ∧
      8 * (opened 31 7 50).rbuf.length + (opened 31 7 50).cur + clog2 (52 - ((opened 31 7 50).n : Nat)) ≤ 256) ∧
    ((opened 31 3 0).phase = .opened ∧ (opened 31 3 0).n ≠ 51 ∧
      256 < 8 * (opened 31 3 0).rbuf.length + (opened 31 3 0).cur + clog2 (52 - ((opened 31 3 0).n : Nat))) ∧
    ((opened 32 0 50).phase = .opened ∧ (opened 32 0 50).n ≠ 51 ∧
      256 < 8 * (opened 32 0 50).rbuf.length + (opened 32 0 50).cur + clog2 (52 - ((opened 32 0 50).n : Nat))) ∧
    State.reset.phase = .idle ∧ halted.phase = .halted := by decide

/-- Widths 0, 8, 9 and 15; 248 and 249 bits for width 8, 256 bits for width 0. -/
theorem test_witness_PushPacksTheLowBits :
    8 < (9#4).toNat ∧ 8 < (15#4).toNat ∧ (8#4).toNat ≤ 8 ∧ (0#4).toNat ≤ 8 ∧
    ((opened 31 0 0).phase = .opened ∧ 8 * (opened 31 0 0).rbuf.length + (opened 31 0 0).cur + (8#4).toNat ≤ 256) ∧
    ((opened 31 1 0).phase = .opened ∧ 256 < 8 * (opened 31 1 0).rbuf.length + (opened 31 1 0).cur + (8#4).toNat) ∧
    ((opened 32 0 0).phase = .opened ∧ 8 * (opened 32 0 0).rbuf.length + (opened 32 0 0).cur + (0#4).toNat ≤ 256) ∧
    State.reset.phase = .idle ∧ halted.phase = .halted := by decide

theorem test_witness_PushOfWidthZeroChangesNothing :
    ((opened 32 0 0).phase = .opened ∧ 8 * (opened 32 0 0).rbuf.length + (opened 32 0 0).cur ≤ 256) ∧
    State.reset.phase = .idle := by decide

/-- An aligned stream of 32 bytes and a misaligned one. -/
theorem test_witness_CloseCommitsTheCompletedBytes :
    ((opened 32 0 51).phase = .opened ∧ (opened 32 0 51).cur = 0) ∧
    ((opened 0 7 0).phase = .opened ∧ (opened 0 7 0).cur ≠ 0) ∧ State.reset.phase = .idle ∧ halted.phase = .halted := by
  decide

theorem test_witness_CloseWritesOnlyTheBytesItAppends :
    (opened 32 0 51).phase = .opened ∧ (0 < (opened 32 0 51).rbuf.length ∧ 31 < (opened 32 0 51).rbuf.length) ∧
    commitAddress (opened 32 0 51) + (opened 32 0 51).rbuf.length ≤ 32 := by decide

/-- An operation in phase OPEN that is no CLOSE, and a CLOSE out of phase OPEN. -/
theorem test_witness_OnlyCloseWritesOut :
    (¬(Instr.push 8 0 = .close ∧ (opened 0 0 0).phase = .opened) ∧ ∃ t, exec (.push 8 0) (opened 0 0 0) = .next t) ∧
    (¬(Instr.close = .close ∧ halted.phase = .opened) ∧ ∃ t, exec .close halted = .next t) :=
  ⟨⟨by decide, _, rfl⟩, by decide, _, rfl⟩

/-- Events that take each branch of the statements about OUT, WARN, AVAIL and N. -/
theorem test_witness_OutIsAppendOnly :
    ∃ t, step { opened 32 0 51 with port := .command 0x5000 :: (opened 32 0 51).port } = .next t := ⟨_, rfl⟩

theorem test_witness_WarnIsSticky :
    (∃ t, step { opened 1 5 1 with port := .command 0x5000 :: (opened 1 5 1).port } = .next t) ∧
    ∃ t, step { halted with port := .reset :: halted.port } = .next t := ⟨⟨_, rfl⟩, _, rfl⟩

theorem test_witness_AvailIsClearedByDealAndRefilledWhole :
    (∃ t, step { opened 0 0 0 with port := .command 0x3033 :: (opened 0 0 0).port } = .next t) ∧
    ∃ t, step { State.reset with port := .command 0x1000 :: State.reset.port } = .next t := ⟨⟨_, rfl⟩, _, rfl⟩

theorem test_witness_NCountsTheProcessedDeals :
    (∃ t, step { opened 31 7 50 with port := .command 0x3000 :: (opened 31 7 50).port } = .next t) ∧
    ∃ t, step { opened 0 0 51 with port := .command 0x3000 :: (opened 0 0 51).port } = .next t := ⟨⟨_, rfl⟩, _, rfl⟩

theorem test_witness_StatusWordsShowTheRegisters : (opened 32 0 51).rbuf.length ≤ 32 ∧ halted.rbuf.length ≤ 32 := by decide

theorem test_witness_Clog2IsTheLeastWidth : 1 ≤ 1 ∧ 1 ≤ 2 ^ 0 ∧ 1 ≤ 52 ∧ 52 ≤ 2 ^ 6 := by decide

theorem test_witness_WidthScheduleIsTheTable : 0 ≤ 50 ∧ 50 ≤ 50 := by decide

/-- AVAIL with the 50 flags 0 to 49 cleared. -/
def fiftyCleared : Vector Bool 52 := Vector.ofFn fun k => decide (50 ≤ (k : Nat))

theorem test_witness_RankOfAnAvailableSymbolFitsItsField :
    ((51#6).toNat < 52 ∧ availFlag (Vector.replicate 52 true) (51#6).toNat = true ∧
      clearedFlags (Vector.replicate 52 true) = 0) ∧
    ((51#6).toNat < 52 ∧ availFlag fiftyCleared (51#6).toNat = true ∧ clearedFlags fiftyCleared = 50 ∧ 50 ≤ 50) := by
  decide

theorem test_identityDeck_permutation : IsPermutation identityDeck := by decide
theorem test_reversedDeck_permutation : IsPermutation reversedDeck := by decide

theorem test_witness_RanksAreTheLehmerCode :
    IsPermutation reversedDeck ∧ reversedDeck[0]? = some 51 ∧ reversedDeck[51]? = some 0 :=
  ⟨test_reversedDeck_permutation, by decide, by decide⟩

/-- t = 7, 8 and 15. -/
theorem test_witness_PackHasTheClosedForm :
    ((7 : Nat) ≤ 8 ∧ LowClear (opened 0 0 0) ∧ ((opened 0 0 0).cur : Nat) + 7 < 8) ∧
    ((8 : Nat) ≤ 8 ∧ LowClear (opened 0 0 0) ∧ 8 ≤ ((opened 0 0 0).cur : Nat) + 8) ∧
    (LowClear { opened 0 7 0 with acc := 0xFE } ∧ 8 ≤ (({ opened 0 7 0 with acc := 0xFE } : State).cur : Nat) + 8) := by
  decide

theorem test_witness_StreamLaw : (opened 0 0 0).rbuf = [] ∧ (opened 0 0 0).acc = 0 ∧ (opened 0 0 0).cur = 0 := by decide

/-- A deck of one symbol repeated, and a permutation. -/
theorem test_witness_EveryRecordIsThirtyTwoBytes :
    State.reset.phase = .idle ∧ Dealable (List.replicate 51 0) ∧ Dealable identityDeck := by decide

theorem test_witness_StateAfterARecord : State.reset.phase = .idle ∧ State.reset.cause = .none ∧ IsPermutation identityDeck :=
  ⟨rfl, rfl, test_identityDeck_permutation⟩

theorem test_witness_RecordHasTheCanonicalLayout : State.reset.phase = .idle ∧ IsPermutation reversedDeck :=
  ⟨rfl, test_reversedDeck_permutation⟩

theorem test_witness_DecodingARecordGivesBackTheConfiguration :
    State.reset.phase = .idle ∧ IsPermutation reversedDeck ∧ (52 ≤ (52#8).toNat ∧ (52#8).toNat ≤ 179) ∧
    (52 ≤ (179#8).toNat ∧ (179#8).toNat ≤ 179) :=
  ⟨rfl, test_reversedDeck_permutation, by decide, by decide⟩

set_option maxRecDepth 20000 in
/-- 32 zero bytes are the record S1 of 95_test_vectors.md: (52, the identity deck). -/
theorem test_witness_ValidBytesAreTheRecordOfTheirDecoding :
    (List.replicate 32 (0 : Byte)).length = 32 ∧ State.reset.phase = .idle ∧
    decodeRecord (List.replicate 32 0) = some (52, List.range 52) := by decide

/-- Two configurations, the second with a repeated symbol. -/
theorem test_witness_CatalogOrderIsPreserved :
    State.reset.phase = .idle ∧
    ∀ c ∈ [((52 : BitVec 8), identityDeck), (179, List.replicate 52 51)], Dealable c.2 := by decide

end Sys2Proof.Tests
end

section
/-! SUPPORT. The proofs of the statements of 00_scope.md: clog2 (R12), and the step that a legal word is (R14). -/

namespace Sys2Proof.Machine

/-! ## clog2 -/

/-- The search reaches a large enough width when its fuel does. -/
theorem le_two_pow_clog2Search {r : Nat} (fuel w : Nat) (h : r ≤ 2 ^ (w + fuel)) :
    r ≤ 2 ^ clog2Search r fuel w := by
  induction fuel generalizing w with
  | zero => exact h
  | succ fuel ih =>
    unfold clog2Search
    split
    next => exact ih (w + 1) (by rwa [Nat.add_right_comm])
    next hw => exact Nat.le_of_not_lt hw

/-- The search does not pass a width that is large enough, whatever its fuel. -/
theorem clog2Search_le {r v : Nat} (hv : r ≤ 2 ^ v) (fuel w : Nat) (hwv : w ≤ v) : clog2Search r fuel w ≤ v := by
  induction fuel generalizing w with
  | zero => exact hwv
  | succ fuel ih =>
    unfold clog2Search
    split
    next hw => exact ih (w + 1) ((Nat.pow_lt_pow_iff_right Nat.one_lt_two).1 (hw.trans_le hv))
    next => exact hwv

/-- The two halves of R12 in one: `clog2` is adjoint to the powers of two (`r` steps are fuel enough, as `r < 2 ^ r`). -/
theorem clog2_le_iff (r w : Nat) : clog2 r ≤ w ↔ r ≤ 2 ^ w := by
  constructor
  · intro hw
    calc r ≤ 2 ^ clog2 r := le_two_pow_clog2Search r 0 (by simpa using Nat.lt_two_pow_self.le)
      _ ≤ 2 ^ w := Nat.pow_le_pow_right Nat.two_pos hw
  · intro h
    exact clog2Search_le h r 0 w.zero_le

/-- Settles O32, from `clog2_le_iff`. -/
theorem clog2IsTheLeastWidth : Obligations.Clog2IsTheLeastWidth :=
  fun r _ => ⟨(clog2_le_iff r (clog2 r)).1 le_rfl, fun w => (clog2_le_iff r w).2⟩

/-! ## The step of a legal word -/

/-- The word presented next is consumed, and nothing else pending is. -/
theorem step_presentNext (w : Word) (s : State) : step (presentNext w s) = presentWord w s :=
  step_of_port_cons (presentNext_port w s)

/-- A word given as its number is the word itself (log entry 11). -/
theorem withFetchWord_toNat (w : Word) (s : State) : s.withFetchWord 16 w.toNat = presentNext w s := by
  simp [State.withFetchWord, Nat.mod_eq_of_lt w.isLt]

/-- A word is its opcode field and the twelve bits below it (30_encoding.md R71). -/
theorem opField_append_zeroFieldZ (w : Word) : opField w ++ zeroFieldZ w = w := by
  calc opField w ++ zeroFieldZ w = w.extractLsb' 0 16 := BitVec.extractLsb'_append_extractLsb'_eq_extractLsb' rfl
    _ = w := BitVec.extractLsb'_eq_self

/-- What a format Z word decodes to (30_encoding.md R71, R81). -/
theorem decodeFormatZ_eq_instr_iff {i j : Instr} {w : Word} :
    decodeFormatZ j w = .instr i ↔ zeroFieldZ w = 0 ∧ j = i := by
  simp [decodeFormatZ, ite_eq_iff]

/-- A word that decodes to CLR has CLR's opcode and a zero field of zeros: the rows of the other opcodes answer their own
operation (30_encoding.md R73). -/
theorem fields_of_decode_clr {w : Word} (h : decode w = .instr .clr) : opField w = 0xF ∧ zeroFieldZ w = 0 := by
  unfold decode at h
  split_ifs at h with h1 h2 h3 h4 h5 hF
  · exact absurd (decodeFormatZ_eq_instr_iff.1 h).2 (by simp)
  · simp [decodeDiff, ite_eq_iff] at h
  · simp [decodeDeal, ite_eq_iff] at h
  · simp [decodePush, ite_eq_iff] at h
  · exact absurd (decodeFormatZ_eq_instr_iff.1 h).2 (by simp)
  · exact ⟨hF, (decodeFormatZ_eq_instr_iff.1 h).1⟩

/-- Only 0xF000 decodes to CLR: the comparison that HALT makes is decoding, for CLR (30_encoding.md R83). -/
theorem eq_of_decode_clr {w : Word} (h : decode w = .instr .clr) : w = 0xF000 := by
  obtain ⟨hop, hzero⟩ := fields_of_decode_clr h
  rw [← opField_append_zeroFieldZ w, hop, hzero]
  rfl

/-- In HALT every operation but CLR is ignored (60_exceptions.md R171). -/
theorem exec_of_halted {i : Instr} {s : State} (hi : i ≠ .clr) (hs : s.phase = .halted) : exec i s = .next s := by
  cases i with
  | openStream => simp [execOpen, hs]
  | diff msl => simp [execDiff, whenOpen, hs]
  | deal sym => simp [execDeal, whenOpen, hs]
  | push wid val => simp [execPush, whenOpen, hs]
  | close => simp [execClose, whenOpen, hs]
  | clr => exact absurd rfl hi

/-- A legal word is its operation, in HALT too (60_exceptions.md R168, R171). -/
theorem presentWord_eq_exec {w : Word} {i : Instr} (hd : decode w = .instr i) (s : State) :
    presentWord w s = exec i s := by
  by_cases hs : s.phase = .halted
  · rw [presentWord_of_halted w hs]
    split
    next hw =>
      have hclr : decode 0xF000 = .instr .clr := by decide
      rw [hw, hclr] at hd
      cases hd; rfl
    next hw => exact (exec_of_halted (fun hi => hw (eq_of_decode_clr (hi ▸ hd))) hs).symm
  · exact presentWord_of_decode hd hs

/-- Settles O6: the word presented is the word run, and in each phase that is its operation. -/
theorem stepRunsTheDecodedOperation : Obligations.StepRunsTheDecodedOperation := by
  intro w i s hd
  rw [withFetchWord_toNat, step_presentNext]
  exact ⟨presentWord_eq_exec hd s, presentWord_eq_exec hd s⟩

end Sys2Proof.Machine
end

section
/-! SUPPORT. The proofs of the statements of 10_state.md: what any one event of the host does to AVAIL, N, WARN and OUT,
said once (R21, R22, R29, R37), that OUT and WARN are never read, the invariant R25, and the status words (R34). -/

namespace Sys2Proof.Machine

/-! ## The words of OPEN, CLOSE, CLR and DEAL -/

/-- A word is its opcode field, the zero field of format M and `msl` (30_encoding.md R71). -/
theorem opField_append_zeroFieldM_mslField (w : Word) : opField w ++ zeroFieldM w ++ mslField w = w := by
  calc opField w ++ zeroFieldM w ++ mslField w = w.extractLsb' 8 8 ++ w.extractLsb' 0 8 :=
        congrArg (· ++ mslField w) (BitVec.extractLsb'_append_extractLsb'_eq_extractLsb' rfl)
    _ = w.extractLsb' 0 16 := BitVec.extractLsb'_append_extractLsb'_eq_extractLsb' rfl
    _ = w := BitVec.extractLsb'_eq_self

/-- A word is its opcode field, the zero field of format S and `sym` (30_encoding.md R71). -/
theorem opField_append_zeroFieldS_symField (w : Word) : opField w ++ zeroFieldS w ++ symField w = w := by
  calc opField w ++ zeroFieldS w ++ symField w = w.extractLsb' 6 10 ++ w.extractLsb' 0 6 :=
        congrArg (· ++ symField w) (BitVec.extractLsb'_append_extractLsb'_eq_extractLsb' rfl)
    _ = w.extractLsb' 0 16 := BitVec.extractLsb'_append_extractLsb'_eq_extractLsb' rfl
    _ = w := BitVec.extractLsb'_eq_self

/-- A format Z word that decodes is its opcode with a zero field of zeros. -/
theorem opField_append_zero_of_decodeFormatZ {i j : Instr} {w : Word} (h : decodeFormatZ j w = .instr i) :
    opField w ++ 0#12 = w := by
  conv_rhs => rw [← opField_append_zeroFieldZ w, (decodeFormatZ_eq_instr_iff.1 h).1]
  rfl

/-- A legal word is the word of a well-formed operation, the one it decodes to (30_encoding.md R71 to R73). -/
theorem wellFormed_and_encode_of_decode {w : Word} {i : Instr} (h : decode w = .instr i) :
    i.wellFormed = true ∧ encode i = w := by
  unfold decode at h
  split_ifs at h with h1 h2 h3 h4 h5 hF
  · obtain rfl := (decodeFormatZ_eq_instr_iff.1 h).2
    exact ⟨rfl, by simpa [encode, h1] using opField_append_zero_of_decodeFormatZ h⟩
  · obtain ⟨hz, rfl⟩ : zeroFieldM w = 0 ∧ Instr.diff (mslField w) = i := by simpa [decodeDiff, ite_eq_iff] using h
    exact ⟨rfl, by simpa [encode, h2, hz] using opField_append_zeroFieldM_mslField w⟩
  · obtain ⟨hz, rfl⟩ : zeroFieldS w = 0 ∧ Instr.deal (symField w) = i := by simpa [decodeDeal, ite_eq_iff] using h
    exact ⟨rfl, by simpa [encode, h3, hz] using opField_append_zeroFieldS_symField w⟩
  · obtain ⟨hw, rfl⟩ : (widField w).toNat ≤ Config.widMax ∧ Instr.push (widField w) (valField w) = i := by
      simpa [decodePush, ite_eq_iff] using h
    refine ⟨decide_eq_true hw, ?_⟩
    rw [encode, show 0x4#4 = opField w from h4.symm]
    exact opField_append_zeroFieldM_mslField w
  · obtain rfl := (decodeFormatZ_eq_instr_iff.1 h).2
    exact ⟨rfl, by simpa [encode, h5] using opField_append_zero_of_decodeFormatZ h⟩
  · obtain rfl := (decodeFormatZ_eq_instr_iff.1 h).2
    exact ⟨rfl, by simpa [encode, hF] using opField_append_zero_of_decodeFormatZ h⟩

theorem encode_of_decode {w : Word} {i : Instr} (h : decode w = .instr i) : encode i = w :=
  (wellFormed_and_encode_of_decode h).2

/-- The word of DEAL, with every operand, decodes to it (30_encoding.md R73). -/
@[simp] theorem decode_encode_deal (sym : BitVec 6) : decode (encode (.deal sym)) = .instr (.deal sym) := by
  revert sym; decide

/-- The word of an operation that its word decodes to is the only one. -/
theorem eq_encode_iff_decode {i : Instr} (hi : decode (encode i) = .instr i) (w : Word) :
    w = encode i ↔ decode w = .instr i :=
  ⟨fun h => h ▸ hi, fun h => (encode_of_decode h).symm⟩

theorem eq_clrWord_iff (w : Word) : w = 0xF000#16 ↔ decode w = .instr .clr :=
  eq_encode_iff_decode (i := .clr) (by decide) w
theorem eq_openWord_iff (w : Word) : w = 0x1000#16 ↔ decode w = .instr .openStream :=
  eq_encode_iff_decode (i := .openStream) (by decide) w
theorem eq_closeWord_iff (w : Word) : w = 0x5000#16 ↔ decode w = .instr .close :=
  eq_encode_iff_decode (i := .close) (by decide) w

/-- The word of DEAL as a number, 0x3000 + sym (30_encoding.md R73). -/
theorem encode_deal_toNat (sym : BitVec 6) : (encode (.deal sym)).toNat = 0x3000 + sym.toNat := by
  revert sym; decide

/-! ## Every word is exactly one case -/

/-- In OPEN the phase check passes. -/
theorem whenOpen_of_opened (i : Instr) {s : State} (effect : State) (hp : s.phase = .opened) :
    whenOpen i s effect = effect := by simp [whenOpen, hp]

/-- In IDLE the phase check raises SEQ. -/
theorem whenOpen_of_idle (i : Instr) {s : State} (effect : State) (hp : s.phase = .idle) :
    whenOpen i s effect = raiseFault .seq (encode i) s := by simp [whenOpen, hp]

/-- PUSH of an accepted width is behind the phase check (41_bit_packer.md R116). -/
theorem exec_push_of_wellFormed {wid : BitVec 4} {val : BitVec 8} (h : (Instr.push wid val).wellFormed = true)
    (s : State) : exec (.push wid val) s = .next (whenOpen (.push wid val) s (pushInOpen wid val s)) := by
  rw [exec_push, execPush, if_pos (of_decide_eq_true h)]

/-- In IDLE every operation but OPEN and CLR raises SEQ (60_exceptions.md R162). -/
theorem exec_of_idle {i : Instr} {s : State} (hwf : i.wellFormed = true) (h1 : i ≠ .openStream) (h2 : i ≠ .clr)
    (hp : s.phase = .idle) : exec i s = .next (raiseFault .seq (encode i) s) := by
  cases i with
  | openStream => exact absurd rfl h1
  | diff msl => rw [exec_diff, execDiff, whenOpen_of_idle _ _ hp]
  | deal sym => rw [exec_deal, execDeal, whenOpen_of_idle _ _ hp]
  | push wid val => rw [exec_push_of_wellFormed hwf, whenOpen_of_idle _ _ hp]
  | close => rw [exec_close, execClose, whenOpen_of_idle _ _ hp]
  | clr => exact absurd rfl h2

/-- DIFF in phase OPEN (42_record_sequencer.md R133). -/
theorem presentWord_diff {w : Word} {msl : BitVec 8} {s : State} (hp : s.phase = .opened)
    (hd : decode w = .instr (.diff msl)) : presentWord w s = .next (packOrOverrun w (difficulty msl) 7 id s) := by
  rw [presentWord_eq_exec hd, exec_diff, execDiff, whenOpen_of_opened _ _ hp, encode_of_decode hd]

/-- DEAL in phase OPEN (40_rank_encoder.md R96). -/
theorem presentWord_deal {w : Word} {sym : BitVec 6} {s : State} (hp : s.phase = .opened)
    (hd : decode w = .instr (.deal sym)) : presentWord w s = .next (dealInOpen sym s) := by
  rw [presentWord_eq_exec hd, exec_deal, execDeal, whenOpen_of_opened _ _ hp]

/-- PUSH in phase OPEN (41_bit_packer.md R116). -/
theorem presentWord_push {w : Word} {wid : BitVec 4} {val : BitVec 8} {s : State} (hp : s.phase = .opened)
    (hd : decode w = .instr (.push wid val)) :
    presentWord w s = .next (packOrOverrun w val.toNat wid.toNat id s) := by
  obtain ⟨hwf, hw⟩ := wellFormed_and_encode_of_decode hd
  rw [presentWord_eq_exec hd, exec_push_of_wellFormed hwf, whenOpen_of_opened _ _ hp, pushInOpen, hw]

/-- Every word, in every state, is one of the cases. -/
theorem presentWord_answers_case (w : Word) (s : State) : ∃ t, presentWord w s = .next t ∧ WordCase w s t :=
  presentWord_case w s fun _ => encode_of_decode

/-- The case a word is in gives the state it leads to. -/
theorem presentWord_of_case {w : Word} {s t : State} (h : WordCase w s t) : presentWord w s = .next t := by
  cases h with
  | cleared hw => rw [presentWord_eq_exec ((eq_clrWord_iff w).1 hw)]; rfl
  | ignored hp hw => rw [presentWord_of_halted w hp, if_neg hw]
  | illegal hp r hd => rw [presentWord_of_not_halted w hp, runWord, hd]
  | opened hp hw => simp [presentWord_eq_exec ((eq_openWord_iff w).1 hw), execOpen, hp]
  | openedTwice hp hw =>
    have hd := (eq_openWord_iff w).1 hw
    simp [presentWord_eq_exec hd, execOpen, hp, encode_of_decode hd]
  | outOfPhase hp i hd h1 h2 =>
    obtain ⟨hwf, hw⟩ := wellFormed_and_encode_of_decode hd
    rw [presentWord_eq_exec hd, exec_of_idle hwf h1 h2 hp, hw]
  | closed hp hw =>
    rw [presentWord_eq_exec ((eq_closeWord_iff w).1 hw), exec_close, execClose, whenOpen_of_opened _ _ hp]
  | dealIgnored hp sym hd hn => simp [presentWord_deal hp hd, dealInOpen, hn]
  | badSymbol hp sym hd hn hs =>
    simp [presentWord_deal hp hd, dealInOpen, hn, (isSymbol_eq_false_iff sym).2 hs, encode_of_decode hd]
  | dealOverrun hp sym hd hn hs hf =>
    simp [presentWord_deal hp hd, dealInOpen, hn, (isSymbol_iff sym).2 hs, Safety.packOrOverrun_of_not_fits hf,
      encode_of_decode hd]
  | dealt hp sym hd hn hs hf =>
    simp [presentWord_deal hp hd, dealInOpen, hn, (isSymbol_iff sym).2 hs, Safety.packOrOverrun_of_fits hf]
  | diffOverrun hp msl hd hf => rw [presentWord_diff hp hd, Safety.packOrOverrun_of_not_fits hf]
  | diffed hp msl hd hf => rw [presentWord_diff hp hd, Safety.packOrOverrun_of_fits hf, id]
  | pushOverrun hp wid val hd hf => rw [presentWord_push hp hd, Safety.packOrOverrun_of_not_fits hf]
  | pushed hp wid val hd hf => rw [presentWord_push hp hd, Safety.packOrOverrun_of_fits hf, id]

/-- `WordCase` is what presenting a word does. -/
theorem presentWord_eq_next_iff {w : Word} {s t : State} : presentWord w s = .next t ↔ WordCase w s t := by
  refine ⟨fun h => ?_, presentWord_of_case⟩
  obtain ⟨u, hu, hcase⟩ := presentWord_answers_case w s
  rw [hu] at h; cases h; exact hcase

/-! ## What one event does to AVAIL, N, WARN and OUT -/

/-- A pending event is consumed, and nothing else pending is. -/
theorem step_pending (e : Event) (s : State) : step { s with port := e :: s.port } = takeEvent e s :=
  step_of_port_cons rfl

/-- The DEAL is processed: not ignored and not faulted (10_state.md R22). -/
structure DealProcessed (sym : BitVec 6) (s : State) : Prop where
  opened : s.phase = .opened
  notLast : s.n ≠ 51
  symbol : sym.toNat < 52
  room : fits (fieldWidth s.n) s = true

/-- The word is none of those that write AVAIL, N, WARN or OUT: CLR, OPEN in IDLE, CLOSE in OPEN, a processed DEAL. -/
structure Quiet (w : Word) (s : State) : Prop where
  notClr : decode w ≠ .instr .clr
  notOpen : s.phase = .idle → decode w ≠ .instr .openStream
  notClose : s.phase = .opened → decode w ≠ .instr .close
  notDeal : ∀ sym, decode w = .instr (.deal sym) → ¬ DealProcessed sym s

/-- AVAIL, N, WARN and OUT are the same. -/
structure SameBookkeeping (s t : State) : Prop where
  avail : t.avail = s.avail
  n : t.n = s.n
  warn : t.warn = s.warn
  out : t.out = s.out

/-- What the event `e` does in state `s`, so far as AVAIL, N, WARN and OUT can tell (10_state.md R21, R22, R29, R37). -/
inductive EventEffect (e : Event) (s : State) : State → Prop
  | cleared (he : e = .reset ∨ e = .command 0xF000) : EventEffect e s (resetRegisters s)
  | began (he : e = .command 0x1000) (hp : s.phase = .idle) : EventEffect e s (beginStream s)
  | committed (he : e = .command 0x5000) (hp : s.phase = .opened) : EventEffect e s (commit (finalize s))
  | dealt (sym : BitVec 6) (he : e = .command (encode (.deal sym))) (hd : DealProcessed sym s) :
      EventEffect e s (pack (rank s.avail sym) (fieldWidth s.n) (consumeSymbol sym s))
  | kept (w : Word) (he : e = .command w) (hq : Quiet w s) (t : State) (ht : SameBookkeeping s t) : EventEffect e s t

theorem sameBookkeeping_self (s : State) : SameBookkeeping s s := ⟨Eq.refl _, Eq.refl _, Eq.refl _, Eq.refl _⟩

theorem sameBookkeeping_raiseFault (f : Cause) (w : Word) (s : State) : SameBookkeeping s (raiseFault f w s) :=
  ⟨rfl, rfl, rfl, rfl⟩

theorem sameBookkeeping_pack (v w : Nat) (s : State) : SameBookkeeping s (pack v w s) :=
  ⟨by simp, by simp, by simp, by simp⟩

/-- In HALT every word but CLR is quiet. -/
theorem quiet_of_halted {w : Word} {s : State} (hp : s.phase = .halted) (hw : w ≠ 0xF000) : Quiet w s where
  notClr h := hw ((eq_clrWord_iff w).2 h)
  notOpen h := by simp [hp] at h
  notClose h := by simp [hp] at h
  notDeal _ _ h := by simpa [hp] using h.opened

/-- An illegal word is quiet. -/
theorem quiet_of_illegal {w : Word} {r : IllegalReason} (s : State) (hd : decode w = .illegal r) : Quiet w s := by
  constructor <;> simp [hd]

/-- In IDLE every operation but OPEN and CLR is quiet. -/
theorem quiet_of_idle {w : Word} {i : Instr} {s : State} (hp : s.phase = .idle) (hd : decode w = .instr i)
    (h1 : i ≠ .openStream) (h2 : i ≠ .clr) : Quiet w s where
  notClr := by simp [hd, h2]
  notOpen := by simp [hd, h1]
  notClose h := by simp [hp] at h
  notDeal _ _ h := by simpa [hp] using h.opened

/-- In OPEN every operation but CLR, CLOSE and a processed DEAL is quiet. -/
theorem quiet_of_opened {w : Word} {i : Instr} {s : State} (hp : s.phase = .opened) (hd : decode w = .instr i)
    (h1 : i ≠ .close := by simp) (h2 : i ≠ .clr := by simp)
    (h3 : ∀ sym, i = .deal sym → ¬ DealProcessed sym s := by simp) : Quiet w s where
  notClr := by simp [hd, h2]
  notOpen h := by simp [hp] at h
  notClose _ := by simp [hd, h1]
  notDeal sym h := h3 sym (by simpa [hd] using h)

/-- A DEAL that is not processed is quiet. -/
theorem quiet_of_deal_not_processed {w : Word} {sym : BitVec 6} {s : State} (hp : s.phase = .opened)
    (hd : decode w = .instr (.deal sym)) (h : ¬ DealProcessed sym s) : Quiet w s :=
  quiet_of_opened hp hd (h3 := fun sym' e => by cases e; exact h)

/-- A quiet word is not the word of CLR. -/
theorem Quiet.ne_clrWord {w : Word} {s : State} (h : Quiet w s) : w ≠ 0xF000#16 :=
  fun hw => h.notClr ((eq_clrWord_iff w).1 hw)

/-- In IDLE a quiet word is not the word of OPEN. -/
theorem Quiet.ne_openWord {w : Word} {s : State} (h : Quiet w s) : ¬(w = 0x1000#16 ∧ s.phase = .idle) :=
  fun ⟨hw, hp⟩ => h.notOpen hp ((eq_openWord_iff w).1 hw)

/-- In OPEN a quiet word is not the word of CLOSE. -/
theorem Quiet.ne_closeWord {w : Word} {s : State} (h : Quiet w s) : ¬(w = 0x5000#16 ∧ s.phase = .opened) :=
  fun ⟨hw, hp⟩ => h.notClose hp ((eq_closeWord_iff w).1 hw)

/-- What a word does, as an effect. -/
theorem eventEffect_of_wordCase {w : Word} {s t : State} (h : WordCase w s t) : EventEffect (.command w) s t := by
  cases h with
  | cleared hw => exact .cleared (.inr (by rw [hw]))
  | ignored hp hw => exact .kept w rfl (quiet_of_halted hp hw) _ (sameBookkeeping_self s)
  | illegal hp r hd => exact .kept w rfl (quiet_of_illegal s hd) _ (sameBookkeeping_raiseFault ..)
  | opened hp hw => exact .began (by rw [hw]) hp
  | openedTwice hp hw =>
    have hd := (eq_openWord_iff w).1 hw
    exact .kept w rfl (quiet_of_opened hp hd) _ (sameBookkeeping_raiseFault ..)
  | outOfPhase hp i hd h1 h2 => exact .kept w rfl (quiet_of_idle hp hd h1 h2) _ (sameBookkeeping_raiseFault ..)
  | closed hp hw => exact .committed (by rw [hw]) hp
  | dealIgnored hp sym hd hn =>
    exact .kept w rfl (quiet_of_deal_not_processed hp hd fun h => h.notLast hn) _ (sameBookkeeping_self s)
  | badSymbol hp sym hd hn hs =>
    exact .kept w rfl (quiet_of_deal_not_processed hp hd fun h => Nat.not_lt.2 hs h.symbol) _
      (sameBookkeeping_raiseFault ..)
  | dealOverrun hp sym hd hn hs hf =>
    exact .kept w rfl (quiet_of_deal_not_processed hp hd fun h => by simp [h.room] at hf) _
      (sameBookkeeping_raiseFault ..)
  | dealt hp sym hd hn hs hf => exact .dealt sym (by rw [encode_of_decode hd]) ⟨hp, hn, hs, hf⟩
  | diffOverrun hp msl hd hf => exact .kept w rfl (quiet_of_opened hp hd) _ (sameBookkeeping_raiseFault ..)
  | diffed hp msl hd hf => exact .kept w rfl (quiet_of_opened hp hd) _ (sameBookkeeping_pack ..)
  | pushOverrun hp wid val hd hf => exact .kept w rfl (quiet_of_opened hp hd) _ (sameBookkeeping_raiseFault ..)
  | pushed hp wid val hd hf => exact .kept w rfl (quiet_of_opened hp hd) _ (sameBookkeeping_pack ..)

/-- What an event does, as an effect. -/
theorem eventEffect_of_takeEvent {e : Event} {s t : State} (h : takeEvent e s = .next t) : EventEffect e s t := by
  cases e with
  | reset => cases h; exact .cleared (.inl rfl)
  | command w => exact eventEffect_of_wordCase (presentWord_eq_next_iff.1 h)

/-- OUT after an event (10_state.md R37). -/
theorem out_of_eventEffect {e : Event} {s t : State} (h : EventEffect e s t) :
    t.out = s.out ++ if e = .command 0x5000 ∧ s.phase = .opened then s.rbuf else [] := by
  cases h with
  | cleared he => rcases he with rfl | rfl <;> simp
  | began he hp => simp [he]
  | committed he hp =>
    rw [if_pos ⟨he, hp⟩, commit_out_append, finalize_out, finalize_rbuf]
  | dealt sym he hd => simp [he, eq_closeWord_iff]
  | kept w he hq t ht => simp [he, hq.ne_closeWord, ht.out]

/-- WARN after an event (10_state.md R29). -/
theorem warn_of_eventEffect {e : Event} {s t : State} (h : EventEffect e s t) :
    t.warn = if e = .reset ∨ e = .command 0xF000 then false
      else s.warn || decide (e = .command 0x5000 ∧ s.phase = .opened ∧ s.cur ≠ 0) := by
  cases h with
  | cleared he => rw [if_pos he, resetRegisters_warn]
  | began he hp => simp [he]
  | committed he hp => simp [he, hp]
  | dealt sym he hd => simp [he, eq_clrWord_iff, eq_closeWord_iff]
  | kept w he hq t ht => simp [he, hq.ne_clrWord, ← and_assoc, -Bool.decide_and, hq.ne_closeWord, ht.warn]

/-! ## OUT and WARN are never read -/

/-- The state with another OUT and another WARN. -/
def withOutWarn (out : List Byte) (warn : Bool) (s : State) : State := { s with out := out, warn := warn }

theorem packBit_withOutWarn (out : List Byte) (warn b : Bool) (s : State) :
    packBit b (withOutWarn out warn s) = withOutWarn out warn (packBit b s) := by
  by_cases h : s.cur = 7 <;> simp [packBit, withOutWarn, h]

/-- Pack reads neither OUT nor WARN. -/
theorem pack_withOutWarn (out : List Byte) (warn : Bool) (v w : Nat) (s : State) :
    pack v w (withOutWarn out warn s) = withOutWarn out warn (pack v w s) := by
  induction w generalizing s with
  | zero => rfl
  | succ w ih => rw [pack, pack, packBit_withOutWarn, ih]

/-- Everything CLOSE does in phase OPEN (42_record_sequencer.md R136). -/
theorem commit_finalize (s : State) : commit (finalize s) =
    { s with warn := s.warn || decide (s.cur ≠ 0), out := s.out ++ s.rbuf, rbuf := [], acc := 0, cur := 0,
             phase := .idle } := by
  by_cases h : s.cur = 0
  · simp [finalize, h, commit, commitAddress, memWrite_at_length]
  · simp [finalize, h, commit, commitAddress, memWrite_at_length, diag]

/-- The commit of CLOSE reads OUT and WARN to write OUT and WARN only. -/
theorem commit_finalize_withOutWarn (out : List Byte) (warn : Bool) (s : State) :
    commit (finalize (withOutWarn out warn s)) =
      withOutWarn (out ++ s.rbuf) (warn || decide (s.cur ≠ 0)) (commit (finalize s)) :=
  (commit_finalize _).trans (congrArg (withOutWarn _ _) (commit_finalize s)).symm

/-- With another OUT and another WARN a word is in the same case. -/
theorem wordCase_withOutWarn {w : Word} {s t : State} (out : List Byte) (warn : Bool) (h : WordCase w s t) :
    ∃ o b, WordCase w (withOutWarn out warn s) (withOutWarn o b t) := by
  cases h with
  | cleared hw => exact ⟨out, false, .cleared hw⟩
  | ignored hp hw => exact ⟨out, warn, .ignored hp hw⟩
  | illegal hp r hd => exact ⟨out, warn, .illegal hp r hd⟩
  | opened hp hw => exact ⟨out, warn, .opened hp hw⟩
  | openedTwice hp hw => exact ⟨out, warn, .openedTwice hp hw⟩
  | outOfPhase hp i hd h1 h2 => exact ⟨out, warn, .outOfPhase hp i hd h1 h2⟩
  | closed hp hw =>
    refine ⟨out ++ s.rbuf, warn || decide (s.cur ≠ 0), ?_⟩
    rw [← commit_finalize_withOutWarn]
    exact .closed (s := withOutWarn out warn s) hp hw
  | dealIgnored hp sym hd hn => exact ⟨out, warn, .dealIgnored hp sym hd hn⟩
  | badSymbol hp sym hd hn hs => exact ⟨out, warn, .badSymbol hp sym hd hn hs⟩
  | dealOverrun hp sym hd hn hs hf => exact ⟨out, warn, .dealOverrun hp sym hd hn hs hf⟩
  | dealt hp sym hd hn hs hf =>
    refine ⟨out, warn, ?_⟩
    rw [← pack_withOutWarn]
    exact .dealt (s := withOutWarn out warn s) hp sym hd hn hs hf
  | diffOverrun hp msl hd hf => exact ⟨out, warn, .diffOverrun hp msl hd hf⟩
  | diffed hp msl hd hf =>
    refine ⟨out, warn, ?_⟩
    rw [← pack_withOutWarn]
    exact .diffed (s := withOutWarn out warn s) hp msl hd hf
  | pushOverrun hp wid val hd hf => exact ⟨out, warn, .pushOverrun hp wid val hd hf⟩
  | pushed hp wid val hd hf =>
    refine ⟨out, warn, ?_⟩
    rw [← pack_withOutWarn]
    exact .pushed (s := withOutWarn out warn s) hp wid val hd hf

/-- No event reads OUT or WARN: with others, nothing but OUT and WARN is different afterwards. -/
theorem takeEvent_withOutWarn {e : Event} {s t : State} (out : List Byte) (warn : Bool)
    (h : takeEvent e s = .next t) :
    ∃ o b, takeEvent e (withOutWarn out warn s) = .next (withOutWarn o b t) := by
  cases e with
  | reset => cases h; exact ⟨out, false, rfl⟩
  | command w =>
    obtain ⟨o, b, hcase⟩ := wordCase_withOutWarn out warn (presentWord_eq_next_iff.1 h)
    exact ⟨o, b, presentWord_of_case hcase⟩

/-- Settles O27: OUT and WARN afterwards are known from the effect, and nothing else depends on OUT. -/
theorem outIsAppendOnly : Obligations.OutIsAppendOnly := by
  intro e s t h
  rw [step_pending] at h
  refine ⟨out_of_eventEffect (eventEffect_of_takeEvent h), fun out => ?_⟩
  obtain ⟨o, b, h'⟩ := takeEvent_withOutWarn out s.warn h
  have ho := out_of_eventEffect (eventEffect_of_takeEvent h')
  have hb : b = t.warn :=
    (warn_of_eventEffect (eventEffect_of_takeEvent h')).trans (warn_of_eventEffect (eventEffect_of_takeEvent h)).symm
  rw [hb] at h'
  exact (step_pending e _).trans (h'.trans (congrArg _ (congrArg (withOutWarn · t.warn t) ho)))

/-- Settles O28: as O27, with WARN in the place of OUT. -/
theorem warnIsSticky : Obligations.WarnIsSticky := by
  intro e s t h
  rw [step_pending] at h
  refine ⟨warn_of_eventEffect (eventEffect_of_takeEvent h), fun warn => ?_⟩
  obtain ⟨o, b, h'⟩ := takeEvent_withOutWarn s.out warn h
  have ho : o = t.out :=
    (out_of_eventEffect (eventEffect_of_takeEvent h')).trans (out_of_eventEffect (eventEffect_of_takeEvent h)).symm
  refine ⟨withOutWarn o b t, (step_pending e _).trans h', ?_⟩
  rw [ho]; rfl

/-! ## AVAIL and N -/

/-- A processed DEAL clears the flag of its symbol, and no other (40_rank_encoder.md R96). -/
theorem availFlag_dealt (sym : BitVec 6) (s : State) (v w k : Nat) (hs : sym.toNat < 52) :
    availFlag (pack v w (consumeSymbol sym s)).avail k = (availFlag s.avail k && decide (k ≠ sym.toNat)) := by
  rw [pack_avail, consumeSymbol_avail, availFlag_setIfInBounds _ _ _ hs]

/-- A processed DEAL advances N (40_rank_encoder.md R96). -/
theorem n_dealt (sym : BitVec 6) (s : State) (v w : Nat) (hn : s.n ≠ 51) :
    ((pack v w (consumeSymbol sym s)).n : Nat) = s.n + 1 := by
  rw [pack_n, consumeSymbol_n, n_add_one _ hn]

/-- Settles O29, effect by effect. -/
theorem availIsClearedByDealAndRefilledWhole : Obligations.AvailIsClearedByDealAndRefilledWhole := by
  intro e s t h
  have hfull : ∀ k, k < 52 → availFlag (Vector.replicate 52 true) k = true := fun k hk => by
    rw [availFlag_replicate_true, decide_eq_true hk]
  rw [step_pending] at h
  cases eventEffect_of_takeEvent h with
  | cleared he => exact .inr (.inl ⟨he.imp_right .inl, hfull⟩)
  | began he hp => exact .inr (.inl ⟨.inr (.inr ⟨he, hp⟩), hfull⟩)
  | committed he hp => exact .inl (finalize_avail s)
  | dealt sym he hd =>
    exact .inr (.inr ⟨sym, hd.symbol, he, hd.opened, fun k => availFlag_dealt sym s _ _ k hd.symbol⟩)
  | kept w he hq t ht => exact .inl ht.avail

/-- The words of DEAL are the numbers 0x3000 to 0x303F, those of a symbol end at 0x3033 (30_encoding.md R73). -/
theorem exists_deal_of_toNat {w : Word} (hlo : 0x3000 ≤ w.toNat) (hhi : w.toNat < 0x3000 + 52) :
    ∃ sym : BitVec 6, sym.toNat < 52 ∧ w = encode (.deal sym) := by
  have hsym : (BitVec.ofNat 6 (w.toNat - 0x3000)).toNat = w.toNat - 0x3000 := by
    rw [BitVec.toNat_ofNat]; omega
  refine ⟨BitVec.ofNat 6 (w.toNat - 0x3000), by omega, BitVec.eq_of_toNat_eq ?_⟩
  rw [encode_deal_toNat, hsym]; omega

/-- R22's condition on a word, that it is a DEAL which is processed, said on the word as a number. -/
theorem processed_iff (w : Word) (s : State) :
    (s.phase = .opened ∧ s.n ≠ 51 ∧ 0x3000 ≤ w.toNat ∧ w.toNat < 0x3000 + 52 ∧
      8 * s.rbuf.length + s.cur + clog2 (52 - (s.n : Nat)) ≤ 256) ↔
    ∃ sym : BitVec 6, w = encode (.deal sym) ∧ DealProcessed sym s := by
  constructor
  · rintro ⟨hp, hn, hlo, hhi, hroom⟩
    obtain ⟨sym, hs, hw⟩ := exists_deal_of_toNat hlo hhi
    exact ⟨sym, hw, hp, hn, hs, (fits_iff _ s).2 hroom⟩
  · rintro ⟨sym, rfl, hd⟩
    rw [encode_deal_toNat]
    exact ⟨hd.opened, hd.notLast, Nat.le_add_right .., Nat.add_lt_add_left hd.symbol _, (fits_iff _ s).1 hd.room⟩

/-- Settles O30, effect by effect. -/
theorem nCountsTheProcessedDeals : Obligations.NCountsTheProcessedDeals := by
  intro e s t h
  rw [step_pending] at h
  cases eventEffect_of_takeEvent h with
  | cleared he => rcases he with rfl | rfl <;> rfl
  | began he hp => subst he; simp [hp]
  | committed he hp => subst he; simp [hp]
  | dealt sym he hd =>
    subst he
    simp only [if_pos ((processed_iff _ s).2 ⟨sym, rfl, hd⟩), n_dealt sym s _ _ hd.notLast]
    simp [eq_clrWord_iff, eq_openWord_iff]
  | kept w he hq t ht =>
    subst he
    have hzero : ¬(w = 0xF000 ∨ (w = 0x1000 ∧ s.phase = .idle)) := not_or.2 ⟨hq.ne_clrWord, hq.ne_openWord⟩
    have hdeal : ¬∃ sym, w = encode (.deal sym) ∧ DealProcessed sym s := fun ⟨sym, hw, hd⟩ =>
      hq.notDeal sym (hw ▸ decode_encode_deal sym) hd
    simp only [if_neg hzero, if_neg (mt (processed_iff w s).1 hdeal), ht.n]

/-! ## The invariant -/

end Sys2Proof.Machine

namespace Sys2Proof.Safety

open Sys2Proof.Machine

/-- Settles O9, item by item. -/
theorem invariantHoldsAtReset : Obligations.InvariantHoldsAtReset where
  lowClear := rfl
  streamFits := by decide
  idleEmpty _ := ⟨rfl, rfl, rfl⟩
  causeIffHalt := by decide
  finfoZero _ := rfl
  clearedLeN := by decide

/-- The flags that are 0, counted as a set. -/
theorem clearedFlags_eq_card (a : Vector Bool 52) :
    clearedFlags a = {j ∈ Finset.range 52 | availFlag a j = false}.card := by
  rw [← Nat.count_eq_card_filter_range, Nat.count, clearedFlags]
  exact List.countP_congr fun j _ => by simp

@[simp] theorem clearedFlags_replicate_true : clearedFlags (Vector.replicate 52 true) = 0 := by
  simp +contextual [clearedFlags_eq_card, availFlag_replicate_true, Finset.filter_eq_empty_iff]

/-- Clearing a flag that is 1 makes one more flag 0. -/
theorem clearedFlags_setIfInBounds (a : Vector Bool 52) (j : Nat) (hj : j < 52) (ha : availFlag a j = true) :
    clearedFlags (a.setIfInBounds j false) = clearedFlags a + 1 := by
  have hinsert : {k ∈ Finset.range 52 | availFlag (a.setIfInBounds j false) k = false} =
      insert j {k ∈ Finset.range 52 | availFlag a k = false} := by
    ext k
    by_cases hk : k = j
    · simp [hk, hj, availFlag_setIfInBounds a j j hj]
    · simp [hk, availFlag_setIfInBounds a j k hj]
  rw [clearedFlags_eq_card, clearedFlags_eq_card, hinsert, Finset.card_insert_of_notMem (by simp [ha])]

/-- Settles O11, effect by effect: the one that clears a flag is that of a processed DEAL. -/
theorem unrepeatedDealsKeepTheCountExact : Obligations.UnrepeatedDealsKeepTheCountExact := by
  intro e s t hexact havail h
  rw [step_pending] at h
  cases eventEffect_of_takeEvent h with
  | cleared he => exact clearedFlags_replicate_true
  | began he hp => exact clearedFlags_replicate_true
  | committed he hp => simpa [ExactCount] using hexact
  | dealt sym he hd =>
    have hflag := havail sym hd.symbol he hd.opened hd.notLast
    rw [ExactCount, n_dealt sym s _ _ hd.notLast, pack_avail, consumeSymbol_avail,
      clearedFlags_setIfInBounds _ _ hd.symbol hflag, hexact]
  | kept w he hq t ht => rw [ExactCount, ht.avail, ht.n, hexact]

end Sys2Proof.Safety

namespace Sys2Proof.Machine

/-! ## The status words -/

/-- A word of two fields as a number: the high field counts the steps of the low one. -/
theorem toNat_append_eq_add {m n : Nat} (x : BitVec m) (y : BitVec n) : (x ++ y).toNat = 2 ^ n * x.toNat + y.toNat := by
  rw [BitVec.toNat_append, Nat.shiftLeft_eq, Nat.mul_comm, Nat.two_pow_add_eq_or_of_lt y.isLt]

/-- STATUS as a number (10_state.md R34). -/
theorem statusWord_toNat (s : State) : (statusWord s).toNat =
    (phaseCode s.phase).toNat + 4 * s.warn.toNat + 16 * (causeCode s.cause).toNat + 256 * s.cur := by
  simp only [statusWord, toNat_append_eq_add, BitVec.toNat_ofNat, BitVec.toNat_ofBool]
  have := s.cur.isLt
  omega

/-- POS as a number, when RBUF is within its capacity (10_state.md R34). -/
theorem posWord_toNat (s : State) (h : s.rbuf.length ≤ 32) : (posWord s).toNat = s.n + 256 * s.rbuf.length := by
  simp only [posWord, toNat_append_eq_add, BitVec.toNat_ofNat]
  have := s.n.isLt
  omega

/-- There is no status word past the third (log entry 12). -/
theorem readStatus_eq_none {k : Nat} (h : 3 ≤ k) (s : State) : readStatus k s = none := by
  obtain ⟨k, rfl⟩ := Nat.exists_eq_add_of_le' h
  rfl

/-- Settles O31, from the two words as numbers. -/
theorem statusWordsShowTheRegisters : Obligations.StatusWordsShowTheRegisters := by
  refine ⟨by decide, fun s hlen => ⟨⟨statusWord s, posWord s, s.finfo, rfl, rfl, rfl, ?_, posWord_toNat s hlen, rfl⟩,
    fun k hk => readStatus_eq_none hk s, decide_eq_true_iff, rfl⟩⟩
  rw [statusWord_toNat]
  cases s.phase <;> cases s.cause <;> rfl

end Sys2Proof.Machine
end

section
/-! SUPPORT. The proofs of the statements of 20_memory.md: which bytes of OUT an operation writes (R57), and what a record
sequence does from any state in IDLE, whence the order of a catalog's records (R63). -/

namespace Sys2Proof.Machine

/-! ## The bytes of OUT -/

/-- Past the phase check an operation leaves OUT alone if its effect does. -/
theorem whenOpen_out (i : Instr) {s effect : State} (h : s.phase = .opened → effect.out = s.out) :
    (whenOpen i s effect).out = s.out := by
  rcases whenOpen_cases i s effect with ⟨-, e⟩ | ⟨-, e⟩ | ⟨hp, e⟩ <;> rw [e]
  · exact raiseFault_out ..
  · exact h hp

/-- A packing command leaves OUT alone (41_bit_packer.md R113). -/
theorem packOrOverrun_out (cmd : Word) (v w : Nat) {also : State → State} {s : State} (h : (also s).out = s.out) :
    (packOrOverrun cmd v w also s).out = s.out := by
  rcases packOrOverrun_cases cmd v w also s with ⟨-, e⟩ | ⟨-, e⟩ <;> rw [e]
  · rw [pack_out, h]
  · exact raiseFault_out ..

/-- DEAL leaves OUT alone (40_rank_encoder.md R96 to R98). -/
theorem dealInOpen_out (sym : BitVec 6) (s : State) : (dealInOpen sym s).out = s.out := by
  rcases dealInOpen_cases sym s with ⟨-, e⟩ | ⟨-, -, e⟩ | ⟨-, -, -, e⟩ | ⟨-, -, -, e⟩ <;> simp [e]

/-- OUT after any operation but a CLOSE in phase OPEN (10_state.md R37). -/
theorem out_of_exec {i : Instr} {s t : State} (hi : ¬(i = .close ∧ s.phase = .opened)) (h : exec i s = .next t) :
    t.out = s.out := by
  cases i with
  | openStream =>
    rw [exec_openStream, execOpen] at h
    split at h <;> cases h <;> simp
  | diff msl => cases h; exact whenOpen_out _ fun _ => packOrOverrun_out _ _ _ rfl
  | deal sym => cases h; exact whenOpen_out _ fun _ => dealInOpen_out sym s
  | push wid val =>
    rw [exec_push, execPush] at h
    split_ifs at h <;> cases h
    · exact whenOpen_out _ fun _ => packOrOverrun_out _ _ _ rfl
    · rfl
    · exact raiseFault_out ..
  | close => cases h; exact whenOpen_out _ fun hp => absurd ⟨rfl, hp⟩ hi
  | clr => cases h; exact resetRegisters_out s

/-- Settles O25: OUT is the same list. -/
theorem onlyCloseWritesOut : Obligations.OnlyCloseWritesOut := fun _ _ _ hi h a =>
  congrArg (·[a]?) (out_of_exec hi h)

/-- OUT after a CLOSE in phase OPEN, byte by byte (42_record_sequencer.md R136). -/
theorem outByte_commit_finalize (s : State) (a : Nat) :
    outByte (commit (finalize s)) a = (s.out ++ s.rbuf)[a]? := by
  rw [outByte, commit_out_append, finalize_out, finalize_rbuf]

/-- Settles O24: the appended bytes start at the old length of OUT, and past them OUT holds no byte, as before. -/
theorem closeWritesOnlyTheBytesItAppends : Obligations.CloseWritesOnlyTheBytesItAppends := by
  intro s hp
  refine ⟨commit (finalize s), ?_, fun j _ => ?_, fun a ha => ?_⟩
  · rw [exec_close, execClose, whenOpen_of_opened _ _ hp]
  · rw [outByte_commit_finalize, commitAddress, List.getElem?_append_right (Nat.le_add_right ..), Nat.add_sub_cancel_left]
  · rw [outByte_commit_finalize, outByte]
    rcases ha with hlt | hge
    · exact List.getElem?_append_left hlt
    · rw [List.getElem?_eq_none (List.length_append.trans_le hge),
        List.getElem?_eq_none (Nat.le_of_add_right_le hge)]

end Sys2Proof.Machine

namespace Sys2Proof.Safety

open Sys2Proof.Machine

/-! ## A deck dealt into an open stream -/

/-- A processed DEAL (40_rank_encoder.md R96). -/
def dealt (sym : BitVec 6) (s : State) : State := pack (rank s.avail sym) (fieldWidth s.n) (consumeSymbol sym s)

/-- Processed DEALs, one for each symbol, in order. -/
def dealtAll (deck : List (BitVec 6)) (s : State) : State := deck.foldl (fun s sym => dealt sym s) s

theorem dealtAll_cons (sym : BitVec 6) (deck : List (BitVec 6)) (s : State) :
    dealtAll (sym :: deck) s = dealtAll deck (dealt sym s) := rfl

/-- The bits of the fields of `k` deck positions from position `n` on (40_rank_encoder.md R91). -/
def scheduleBits (n k : Nat) : Nat := ((List.range' n k).map fieldWidth).sum

theorem scheduleBits_succ (n k : Nat) : scheduleBits n (k + 1) = fieldWidth n + scheduleBits (n + 1) k := by
  simp [scheduleBits, List.range'_succ]

@[simp] theorem dealt_phase (sym : BitVec 6) (s : State) : (dealt sym s).phase = s.phase := pack_phase ..

theorem streamLength_dealt (sym : BitVec 6) (s : State) :
    streamLength (dealt sym s) = streamLength s + fieldWidth s.n := streamLength_pack ..

/-- Every DEAL of the deck will be processed: none ignored and none faulted (10_state.md R22). -/
structure DeckFits (deck : List (BitVec 6)) (s : State) : Prop where
  opened : s.phase = .opened
  symbols : ∀ sym ∈ deck, isSymbol sym = true
  positions : (s.n : Nat) + deck.length ≤ 51
  room : streamLength s + scheduleBits s.n deck.length ≤ 256

/-- The first DEAL of a deck that fits is processed. -/
theorem DeckFits.dealProcessed {sym : BitVec 6} {deck : List (BitVec 6)} {s : State} (h : DeckFits (sym :: deck) s) :
    DealProcessed sym s where
  opened := h.opened
  notLast hn := by simpa [hn] using h.positions
  symbol := (isSymbol_iff sym).1 (h.symbols sym List.mem_cons_self)
  room := by
    have hroom := h.room
    rw [List.length_cons, scheduleBits_succ, streamLength] at hroom
    rw [fits_iff]; omega

theorem DeckFits.n_dealt {sym : BitVec 6} {deck : List (BitVec 6)} {s : State} (h : DeckFits (sym :: deck) s) :
    ((dealt sym s).n : Nat) = s.n + 1 := Machine.n_dealt sym s _ _ h.dealProcessed.notLast

/-- After the first DEAL of a deck that fits, the rest fits. -/
theorem DeckFits.tail {sym : BitVec 6} {deck : List (BitVec 6)} {s : State} (h : DeckFits (sym :: deck) s) :
    DeckFits deck (dealt sym s) := by
  have hpos := h.positions
  have hroom := h.room
  rw [List.length_cons] at hpos hroom
  rw [scheduleBits_succ] at hroom
  refine ⟨by simpa using h.opened, fun k hk => h.symbols k (List.mem_cons_of_mem _ hk), ?_, ?_⟩
  · rw [h.n_dealt]; omega
  · rw [h.n_dealt, streamLength_dealt]; omega

/-- The words of a deck that fits do its DEALs. -/
theorem runWords_deckWords {deck : List (BitVec 6)} {s : State} (h : DeckFits deck s) :
    runWords (deckWords deck) s = .next (dealtAll deck s) := by
  induction deck generalizing s with
  | nil => rfl
  | cons sym deck ih =>
    obtain ⟨hp, hn, hs, hf⟩ := h.dealProcessed
    exact (runWords_cons _ (presentWord_of_case (.dealt hp sym (decode_encode_deal sym) hn hs hf))).trans (ih h.tail)

/-- What the DEALs of a deck that fits do to PHASE, N and the length of the stream. -/
theorem dealtAll_counts {deck : List (BitVec 6)} {s : State} (h : DeckFits deck s) :
    (dealtAll deck s).phase = .opened ∧ ((dealtAll deck s).n : Nat) = s.n + deck.length ∧
      streamLength (dealtAll deck s) = streamLength s + scheduleBits s.n deck.length := by
  induction deck generalizing s with
  | nil => exact ⟨h.opened, rfl, rfl⟩
  | cons sym deck ih =>
    obtain ⟨hp, hn, hlen⟩ := ih h.tail
    rw [h.n_dealt] at hn hlen
    rw [streamLength_dealt] at hlen
    rw [dealtAll_cons, List.length_cons, scheduleBits_succ]
    exact ⟨hp, by omega, by omega⟩

/-- At N = 51 every DEAL is ignored (40_rank_encoder.md R98). -/
theorem runWords_deckWords_of_full (deck : List (BitVec 6)) {s : State} (hp : s.phase = .opened) (hn : s.n = 51) :
    runWords (deckWords deck) s = .next s := by
  induction deck with
  | nil => rfl
  | cons sym deck ih =>
    exact (runWords_cons _ (presentWord_of_case (.dealIgnored hp sym (decode_encode_deal sym) hn))).trans ih

/-! ## What a stream does not read -/

/-- The encoder and the packer of `s` (AVAIL, N, ACC, CUR, RBUF) and its PHASE, with everything else taken from `r`. -/
def withRest (r s : State) : State :=
  { s with warn := r.warn, cause := r.cause, finfo := r.finfo, out := r.out, port := r.port }

theorem packBit_withRest (r : State) (b : Bool) (s : State) : packBit b (withRest r s) = withRest r (packBit b s) := by
  by_cases h : s.cur = 7 <;> simp [packBit, withRest, h]

theorem pack_withRest (r : State) (v w : Nat) (s : State) : pack v w (withRest r s) = withRest r (pack v w s) := by
  induction w generalizing s with
  | zero => rfl
  | succ w ih => rw [pack, pack, packBit_withRest, ih]

theorem dealtAll_withRest (r : State) (deck : List (BitVec 6)) (s : State) :
    dealtAll deck (withRest r s) = withRest r (dealtAll deck s) := by
  induction deck generalizing s with
  | nil => rfl
  | cons sym deck ih =>
    have hdealt : dealt sym (withRest r s) = withRest r (dealt sym s) := pack_withRest r _ _ (consumeSymbol sym s)
    exact (congrArg (dealtAll deck) hdealt).trans (ih (dealt sym s))

/-! ## One record -/

/-- The stream of a record before its first DEAL: OPEN, DIFF (42_record_sequencer.md R140). -/
def openedRecord (msl : BitVec 8) (s : State) : State := pack (difficulty msl) 7 (beginStream s)

/-- The stream of a record before its CLOSE. -/
def filledRecord (msl : BitVec 8) (deck : List (BitVec 6)) (s : State) : State :=
  dealtAll (deck.take Config.encN) (openedRecord msl s)

/-- The bytes of a record: what its sequence holds in RBUF before its CLOSE, in the block right after reset. -/
def recordBlock (msl : BitVec 8) (deck : List (BitVec 6)) : List Byte := (filledRecord msl deck State.reset).rbuf

/-- A record's stream is the same from every state, as OPEN begins a fresh one (42_record_sequencer.md R131). -/
theorem filledRecord_eq_withRest (msl : BitVec 8) (deck : List (BitVec 6)) (s : State) :
    filledRecord msl deck s = withRest s (filledRecord msl deck State.reset) :=
  calc filledRecord msl deck s
    _ = dealtAll (deck.take Config.encN) (pack (difficulty msl) 7 (withRest s (beginStream State.reset))) := rfl
    _ = dealtAll (deck.take Config.encN) (withRest s (openedRecord msl State.reset)) := by rw [pack_withRest, openedRecord]
    _ = withRest s (filledRecord msl deck State.reset) := dealtAll_withRest ..

/-- The 7 bits of the difficulty and the 249 of the ranks are 256 (40_rank_encoder.md R92). -/
theorem diffW_add_scheduleBits : 7 + scheduleBits 0 51 = 256 := by decide

theorem streamLength_openedRecord (msl : BitVec 8) (s : State) : streamLength (openedRecord msl s) = 7 := by
  rw [openedRecord, streamLength_pack]; rfl

@[simp] theorem openedRecord_phase (msl : BitVec 8) (s : State) : (openedRecord msl s).phase = .opened := by
  rw [openedRecord, pack_phase, beginStream_phase]

@[simp] theorem openedRecord_n (msl : BitVec 8) (s : State) : ((openedRecord msl s).n : Nat) = 0 := by
  rw [openedRecord, pack_n, beginStream_n, Fin.val_zero]

/-- The first 51 DEALs of a record are processed. -/
theorem deckFits_openedRecord (msl : BitVec 8) {deck : List (BitVec 6)} (hdeck : Dealable deck) (s : State) :
    DeckFits (deck.take Config.encN) (openedRecord msl s) where
  opened := openedRecord_phase msl s
  symbols := hdeck.2
  positions := by simp
  room := by
    rw [streamLength_openedRecord, openedRecord_n, List.length_take_of_le hdeck.1]
    exact diffW_add_scheduleBits.le

/-- Before its CLOSE a record's stream is open, at N = 51, and has 32 whole bytes (42_record_sequencer.md R142). -/
theorem filledRecord_full (msl : BitVec 8) {deck : List (BitVec 6)} (hdeck : Dealable deck) (s : State) :
    (filledRecord msl deck s).phase = .opened ∧ (filledRecord msl deck s).n = 51 ∧
      (filledRecord msl deck s).rbuf.length = 32 ∧ (filledRecord msl deck s).cur = 0 := by
  obtain ⟨hp, hn, hlen⟩ := dealtAll_counts (deckFits_openedRecord msl hdeck s)
  rw [openedRecord_n, List.length_take_of_le hdeck.1] at hn hlen
  rw [streamLength_openedRecord, diffW_add_scheduleBits, streamLength] at hlen
  have hcur := (filledRecord msl deck s).cur.isLt
  rw [filledRecord] at hcur ⊢
  exact ⟨hp, Fin.ext (by simpa using hn), by omega, Fin.ext (by simp; omega)⟩

theorem recordBlock_length (msl : BitVec 8) {deck : List (BitVec 6)} (hdeck : Dealable deck) :
    (recordBlock msl deck).length = 32 := by
  obtain ⟨-, -, hlen, -⟩ := filledRecord_full msl hdeck State.reset
  exact hlen

/-- The word of DIFF, with every operand, decodes to it (30_encoding.md R73). -/
theorem decode_encode_diff (msl : BitVec 8) : decode (encode (.diff msl)) = .instr (.diff msl) := by
  revert msl; decide

/-- OPEN and DIFF from a state in IDLE. -/
theorem runWords_open_diff (msl : BitVec 8) (ws : List Word) {s : State} (hp : s.phase = .idle) :
    runWords (encode .openStream :: encode (.diff msl) :: ws) s = runWords ws (openedRecord msl s) := by
  have hopen : WordCase (encode .openStream) s (beginStream s) := .opened hp (by decide)
  have hdiff : WordCase (encode (.diff msl)) (beginStream s) (openedRecord msl s) :=
    .diffed rfl msl (decode_encode_diff msl) (by simp [fits_iff])
  rw [runWords_cons _ (presentWord_of_case hopen), runWords_cons _ (presentWord_of_case hdiff)]

/-- The DEALs of a record: the first 51 are processed, any more are ignored. -/
theorem runWords_deckWords_record (msl : BitVec 8) {deck : List (BitVec 6)} (hdeck : Dealable deck) (s : State) :
    runWords (deckWords deck) (openedRecord msl s) = .next (filledRecord msl deck s) := by
  obtain ⟨hp, hn, -⟩ := filledRecord_full msl hdeck s
  have hsplit : deckWords deck = deckWords (deck.take Config.encN) ++ deckWords (deck.drop Config.encN) := by
    rw [deckWords, deckWords, deckWords, ← List.map_append, List.take_append_drop]
  rw [hsplit, runWords_append _ (runWords_deckWords (deckFits_openedRecord msl hdeck s))]
  exact runWords_deckWords_of_full _ hp hn

/-- A record sequence from a state in IDLE, whole (42_record_sequencer.md R140). -/
theorem runWords_recordWords (msl : BitVec 8) {deck : List (BitVec 6)} (hdeck : Dealable deck) {s : State}
    (hp : s.phase = .idle) :
    runWords (recordWords msl deck) s = .next (commit (finalize (filledRecord msl deck s))) := by
  obtain ⟨hopen, -⟩ := filledRecord_full msl hdeck s
  have hclose : WordCase (encode .close) (filledRecord msl deck s) (commit (finalize (filledRecord msl deck s))) :=
    .closed hopen (by decide)
  rw [recordWords, runWords_open_diff msl _ hp, runWords_append _ (runWords_deckWords_record msl hdeck s),
    runWords_cons _ (presentWord_of_case hclose), runWords_nil]

/-- What a record appends to OUT does not depend on the state it starts from (20_memory.md R63). -/
theorem record_out (msl : BitVec 8) (deck : List (BitVec 6)) (s : State) :
    (commit (finalize (filledRecord msl deck s))).out = s.out ++ recordBlock msl deck := by
  rw [commit_out_append, finalize_out, finalize_rbuf, filledRecord_eq_withRest]
  rfl

/-! ## A catalog -/

/-- The bytes of each record of a catalog, in order. -/
def catalogBlocks (configs : List (BitVec 8 × List (BitVec 6))) : List (List Byte) :=
  configs.map fun c => recordBlock c.1 c.2

theorem catalogBlocks_cons (c : BitVec 8 × List (BitVec 6)) (configs : List (BitVec 8 × List (BitVec 6))) :
    catalogBlocks (c :: configs) = recordBlock c.1 c.2 :: catalogBlocks configs := rfl

/-- A catalog from a state in IDLE: record after record (20_memory.md R63). -/
theorem runWords_catalogWords {configs : List (BitVec 8 × List (BitVec 6))} {s : State} (hp : s.phase = .idle)
    (hdecks : ∀ c ∈ configs, Dealable c.2) :
    ∃ t, runWords (catalogWords configs) s = .next t ∧ t.out = s.out ++ (catalogBlocks configs).flatten := by
  induction configs generalizing s with
  | nil => exact ⟨s, rfl, by simp [catalogBlocks]⟩
  | cons c configs ih =>
    obtain ⟨hdeck, hrest⟩ := List.forall_mem_cons.1 hdecks
    obtain ⟨t, hrun, hout⟩ := ih (s := commit (finalize (filledRecord c.1 c.2 s))) rfl hrest
    refine ⟨t, (runWords_append _ (runWords_recordWords c.1 hdeck hp)).trans hrun, ?_⟩
    rw [hout, record_out, catalogBlocks_cons, List.flatten_cons, List.append_assoc]

theorem catalogBlocks_flatten_length {configs : List (BitVec 8 × List (BitVec 6))}
    (hdecks : ∀ c ∈ configs, Dealable c.2) : (catalogBlocks configs).flatten.length = 32 * configs.length := by
  induction configs with
  | nil => rfl
  | cons c configs ih =>
    obtain ⟨hdeck, hrest⟩ := List.forall_mem_cons.1 hdecks
    rw [catalogBlocks_cons, List.flatten_cons, List.length_append, recordBlock_length c.1 hdeck, ih hrest,
      List.length_cons, Nat.mul_succ, Nat.add_comm]

/-- Settles O44: the blocks are the records' bytes, each the same from every state. -/
theorem catalogOrderIsPreserved : Obligations.CatalogOrderIsPreserved := by
  intro configs s hp hdecks
  obtain ⟨t, hrun, hout⟩ := runWords_catalogWords hp hdecks
  refine ⟨t, catalogBlocks configs, hrun, hout, ?_, ?_⟩
  · rw [hout, List.length_append, catalogBlocks_flatten_length hdecks]
  · rw [catalogBlocks, List.forall₂_map_right_iff, List.forall₂_same]
    exact fun c hc => ⟨recordBlock_length c.1 (hdecks c hc), _, runWords_recordWords c.1 (hdecks c hc) rfl,
      record_out c.1 c.2 _⟩

end Sys2Proof.Safety
end

section
/-! SUPPORT. The proofs of the statements of 30_encoding.md: decoding and encoding are inverse (R71 to R73), the rows of
mask and match (R74), the illegal words (R80), and that a record's DEALs past the 51st change nothing (R85). -/

namespace Sys2Proof.Machine

/-! ## Decoding a word put together from fields -/

/-- The fields of a word written in the layout of formats M and P (30_encoding.md R71, R72). -/
theorem opField_append (op hi : BitVec 4) (lo : BitVec 8) : opField (op ++ hi ++ lo) = op := by
  rw [opField, BitVec.extractLsb'_append_eq_of_le (by decide)]
  exact BitVec.extractLsb'_append_eq_left

theorem widField_append (op wid : BitVec 4) (val : BitVec 8) : widField (op ++ wid ++ val) = wid := by
  rw [widField, BitVec.extractLsb'_append_eq_of_le (by decide)]
  exact BitVec.extractLsb'_append_eq_right

theorem valField_append (op wid : BitVec 4) (val : BitVec 8) : valField (op ++ wid ++ val) = val :=
  BitVec.extractLsb'_append_eq_right

/-! The opcode picks the format (30_encoding.md R73). -/

theorem decode_of_opField_diff {w : Word} (h : opField w = 0x2) : decode w = decodeDiff w := by simp [decode, h]
theorem decode_of_opField_deal {w : Word} (h : opField w = 0x3) : decode w = decodeDeal w := by simp [decode, h]
theorem decode_of_opField_push {w : Word} (h : opField w = 0x4) : decode w = decodePush w := by simp [decode, h]

/-- The word of PUSH, with every accepted width and every value, decodes to it (30_encoding.md R73, R74). -/
theorem decode_encode_push {wid : BitVec 4} (hwid : wid.toNat ≤ Config.widMax) (val : BitVec 8) :
    decode (encode (.push wid val)) = .instr (.push wid val) := by
  rw [decode_of_opField_push (by rw [encode, opField_append]; rfl), decodePush, encode, widField_append, valField_append,
    if_pos hwid]

/-- Settles O2, operation by operation. -/
theorem decodeOfEncodeIsTheOperation : Obligations.DecodeOfEncodeIsTheOperation := by
  intro i hwf
  cases i with
  | openStream => decide
  | diff msl => exact Safety.decode_encode_diff msl
  | deal sym => exact decode_encode_deal sym
  | push wid val => exact decode_encode_push (of_decide_eq_true hwf) val
  | close => decide
  | clr => decide

/-- Settles O3. -/
theorem encodeOfDecodeIsTheWord : Obligations.EncodeOfDecodeIsTheWord :=
  fun _ _ => wellFormed_and_encode_of_decode

/-- Settles O1: fixed words, decoded. -/
theorem wordsOfTheSpecDecode : Obligations.WordsOfTheSpecDecode := by
  unfold Obligations.WordsOfTheSpecDecode
  decide

/-! ## The illegal words -/

/-! The fields as numbers (30_encoding.md R71, R72). -/

theorem opField_toNat (w : Word) : (opField w).toNat = w.toNat / 4096 := by
  have := w.isLt
  rw [opField, BitVec.extractLsb'_toNat, Nat.shiftRight_eq_div_pow]; omega

theorem zeroFieldZ_toNat (w : Word) : (zeroFieldZ w).toNat = w.toNat % 4096 := by
  rw [zeroFieldZ, BitVec.extractLsb'_toNat]; rfl

theorem zeroFieldM_toNat (w : Word) : (zeroFieldM w).toNat = w.toNat / 256 % 16 := by
  rw [zeroFieldM, BitVec.extractLsb'_toNat, Nat.shiftRight_eq_div_pow]

theorem zeroFieldS_toNat (w : Word) : (zeroFieldS w).toNat = w.toNat / 64 % 64 := by
  rw [zeroFieldS, BitVec.extractLsb'_toNat, Nat.shiftRight_eq_div_pow]

theorem widField_toNat (w : Word) : (widField w).toNat = w.toNat / 256 % 16 := zeroFieldM_toNat w

/-- A word is illegal when the decoder gives a reason. -/
theorem legal_eq_false_iff (w : Word) : legal w = false ↔ ∃ r, decode w = .illegal r := by
  unfold legal
  cases decode w <;> simp

/-- Which words of a format are illegal (30_encoding.md R80, R81). -/
theorem decodeFormatZ_illegal_iff (i : Instr) (w : Word) :
    (∃ r, decodeFormatZ i w = .illegal r) ↔ w.toNat % 4096 ≠ 0 := by
  rw [← zeroFieldZ_toNat]
  simp [decodeFormatZ, ite_eq_iff, ← BitVec.toNat_inj]

theorem decodeDiff_illegal_iff (w : Word) : (∃ r, decodeDiff w = .illegal r) ↔ w.toNat / 256 % 16 ≠ 0 := by
  rw [← zeroFieldM_toNat]
  simp [decodeDiff, ite_eq_iff, ← BitVec.toNat_inj]

theorem decodeDeal_illegal_iff (w : Word) : (∃ r, decodeDeal w = .illegal r) ↔ w.toNat / 64 % 64 ≠ 0 := by
  rw [← zeroFieldS_toNat]
  simp [decodeDeal, ite_eq_iff, ← BitVec.toNat_inj]

theorem decodePush_illegal_iff (w : Word) : (∃ r, decodePush w = .illegal r) ↔ 9 ≤ w.toNat / 256 % 16 := by
  rw [← widField_toNat]
  simp [decodePush, ite_eq_iff, Nat.succ_le_iff]

/-- An opcode that no operation has is one of the ten that R80 lists. -/
theorem unassigned_of_ne {op : BitVec 4} (h1 : op ≠ 0x1) (h2 : op ≠ 0x2) (h3 : op ≠ 0x3) (h4 : op ≠ 0x4) (h5 : op ≠ 0x5)
    (hF : op ≠ 0xF) : op.toNat ∈ [0x0, 0x6, 0x7, 0x8, 0x9, 0xA, 0xB, 0xC, 0xD, 0xE] := by
  decide +revert

/-- Settles O4: the lists of R80 are the opcodes' formats, one after another. -/
theorem illegalWordsAreThoseListedAndRaiseIllcmd : Obligations.IllegalWordsAreThoseListedAndRaiseIllcmd := by
  intro w
  simp only [legal_eq_false_iff]
  refine ⟨?_, fun ⟨r, hd⟩ s hp => ?_⟩
  · rw [← opField_toNat]
    unfold decode
    split_ifs with h1 h2 h3 h4 h5 hF
    · simp [h1, decodeFormatZ_illegal_iff]
    · simp [h2, decodeDiff_illegal_iff]
    · simp [h3, decodeDeal_illegal_iff]
    · simp [h4, decodePush_illegal_iff]
    · simp [h5, decodeFormatZ_illegal_iff]
    · simp [hF, decodeFormatZ_illegal_iff]
    · exact ⟨fun _ => .inl (unassigned_of_ne h1 h2 h3 h4 h5 hF), fun _ => ⟨_, rfl⟩⟩
  · rw [step_presentNext]
    exact presentWord_of_case (.illegal hp r hd)

/-- Settles O15: such a width fails the operation's own check, which comes before the phase's. -/
theorem pushOfTooLargeWidthTakesIllcmd : Obligations.PushOfTooLargeWidthTakesIllcmd := by
  intro wid val s hwid
  rw [exec_push, execPush, if_neg (Nat.not_le.2 hwid)]
  exact ⟨fun hp => if_neg hp, fun hp => if_pos hp⟩

/-! ## Mask and match -/

/-- A field that the mask covers is the match value's. -/
theorem field_eq_of_mask {w mask pattern : Word} (h : w &&& mask = pattern) {start len : Nat}
    (hmask : mask.extractLsb' start len = BitVec.allOnes len) :
    w.extractLsb' start len = pattern.extractLsb' start len := by
  rw [← h, BitVec.extractLsb'_and, hmask, BitVec.and_allOnes]

/-- The row of DIFF (30_encoding.md R74). -/
theorem decode_diff_iff_mask (w : Word) : (∃ msl, decode w = .instr (.diff msl)) ↔ w &&& 0xFF00 = 0x2000 := by
  constructor
  · rintro ⟨msl, hd⟩
    rw [← encode_of_decode hd]
    exact Laws.MatchMask.diff msl
  · intro h
    have hop : opField w = 0x2 := field_eq_of_mask h (by decide)
    have hzero : zeroFieldM w = 0 := field_eq_of_mask h (by decide)
    exact ⟨mslField w, by rw [decode_of_opField_diff hop, decodeDiff, if_pos hzero]⟩

/-- The row of DEAL (30_encoding.md R74). -/
theorem decode_deal_iff_mask (w : Word) : (∃ sym, decode w = .instr (.deal sym)) ↔ w &&& 0xFFC0 = 0x3000 := by
  constructor
  · rintro ⟨sym, hd⟩
    rw [← encode_of_decode hd]
    exact Laws.MatchMask.deal sym
  · intro h
    have hop : opField w = 0x3 := field_eq_of_mask h (by decide)
    have hzero : zeroFieldS w = 0 := field_eq_of_mask h (by decide)
    exact ⟨symField w, by rw [decode_of_opField_deal hop, decodeDeal, if_pos hzero]⟩

/-- The row of PUSH, with its further condition (30_encoding.md R74). -/
theorem decode_push_iff_mask (w : Word) : (∃ wid val, decode w = .instr (.push wid val)) ↔
    w &&& 0xF000 = 0x4000 ∧ w.toNat / 256 % 16 ≤ 8 := by
  rw [← widField_toNat]
  constructor
  · rintro ⟨wid, val, hd⟩
    obtain ⟨hwf, rfl⟩ := wellFormed_and_encode_of_decode hd
    refine ⟨Laws.MatchMask.push wid val, ?_⟩
    rw [encode, widField_append]
    exact of_decide_eq_true hwf
  · rintro ⟨h, hwid⟩
    have hop : opField w = 0x4 := field_eq_of_mask h (by decide)
    exact ⟨widField w, valField w, by rw [decode_of_opField_push hop, decodePush, if_pos hwid]⟩

/-- Settles O5: the mask of a row without operands is the whole word. -/
theorem maskAndMatchSelectTheOperation : Obligations.MaskAndMatchSelectTheOperation := by
  intro w
  have hfull : w &&& 0xFFFF = w := BitVec.and_allOnes
  rw [hfull]
  exact ⟨(eq_openWord_iff w).symm, decode_diff_iff_mask w, decode_deal_iff_mask w, decode_push_iff_mask w,
    (eq_closeWord_iff w).symm, (eq_clrWord_iff w).symm⟩

end Sys2Proof.Machine

namespace Sys2Proof.Safety

open Sys2Proof.Machine

/-! ## The DEALs past the 51st -/

/-- Only CLOSE and CLR lead to IDLE (42_record_sequencer.md R130). -/
theorem phase_ne_idle_of_wordCase {w : Word} {s t : State} (h : WordCase w s t) (hclose : w ≠ 0x5000)
    (hclr : w ≠ 0xF000) : t.phase ≠ .idle := by
  cases h with
  | cleared hw => exact absurd hw hclr
  | closed hp hw => exact absurd hw hclose
  | ignored hp | dealIgnored hp | dealt hp | diffed hp | pushed hp => simp [hp]
  | illegal | opened | openedTwice | outOfPhase | badSymbol | dealOverrun | diffOverrun | pushOverrun => simp

/-- Every DEAL is ignored: in HALT (60_exceptions.md R171), and in OPEN at N = 51 (40_rank_encoder.md R98). -/
def IgnoresDeals (s : State) : Prop := s.phase = .halted ∨ (s.phase = .opened ∧ s.n = 51)

/-- In HALT every DEAL is ignored (60_exceptions.md R171). -/
theorem runWords_deckWords_of_halted {s : State} (hp : s.phase = .halted) (deck : List (BitVec 6)) :
    runWords (deckWords deck) s = .next s := by
  induction deck with
  | nil => rfl
  | cons sym deck ih =>
    have hclr : encode (.deal sym) ≠ 0xF000 := by simp [eq_clrWord_iff]
    exact (runWords_cons _ (presentWord_of_case (.ignored hp hclr))).trans ih

theorem runWords_deckWords_of_ignoresDeals {s : State} (h : IgnoresDeals s) (deck : List (BitVec 6)) :
    runWords (deckWords deck) s = .next s := by
  rcases h with hp | ⟨hp, hn⟩
  · exact runWords_deckWords_of_halted hp deck
  · exact runWords_deckWords_of_full deck hp hn

/-- Past phase IDLE, at N = 51, every DEAL is ignored. -/
theorem ignoresDeals_of_full {s : State} (hp : s.phase ≠ .idle) (hn : s.n = 51) : IgnoresDeals s := by
  cases h : s.phase with
  | idle => exact absurd h hp
  | opened => exact .inr ⟨h, hn⟩
  | halted => exact .inl h

/-- After a DEAL either every further one is ignored, or N has advanced (40_rank_encoder.md R96 to R98). -/
theorem ignoresDeals_or_n_succ_of_wordCase {sym : BitVec 6} {s t : State} (h : WordCase (encode (.deal sym)) s t) :
    IgnoresDeals t ∨ (t.n : Nat) = s.n + 1 := by
  cases h with
  | cleared hw => simp [eq_clrWord_iff] at hw
  | opened hp hw => simp [eq_openWord_iff] at hw
  | closed hp hw => simp [eq_closeWord_iff] at hw
  | diffed hp msl hd => simp at hd
  | pushed hp wid val hd => simp at hd
  | ignored hp => exact .inl (.inl hp)
  | dealIgnored hp sym' hd hn => exact .inl (.inr ⟨hp, hn⟩)
  | dealt hp sym' hd hn => exact .inr (n_dealt sym' s _ _ hn)
  | illegal | openedTwice | outOfPhase | badSymbol | dealOverrun | diffOverrun | pushOverrun => exact .inl (.inl rfl)

/-- Of a deck's DEALs those that N leaves no position for make no difference (40_rank_encoder.md R98). -/
theorem runWords_deckWords_take {k : Nat} {s : State} (hk : 51 ≤ (s.n : Nat) + k) (hp : s.phase ≠ .idle)
    (deck : List (BitVec 6)) : runWords (deckWords (deck.take k)) s = runWords (deckWords deck) s := by
  induction deck generalizing k s with
  | nil => rw [List.take_nil]
  | cons sym deck ih =>
    cases k with
    | zero =>
      have hn : s.n = 51 := Fin.ext (Nat.le_antisymm (Nat.le_of_lt_succ s.n.isLt) hk)
      have hignores := ignoresDeals_of_full hp hn
      rw [runWords_deckWords_of_ignoresDeals hignores, runWords_deckWords_of_ignoresDeals hignores]
    | succ k =>
      obtain ⟨t, ht, hcase⟩ := presentWord_answers_case (encode (.deal sym)) s
      have hrest : runWords (deckWords (deck.take k)) t = runWords (deckWords deck) t := by
        rcases ignoresDeals_or_n_succ_of_wordCase hcase with hignores | hn
        · rw [runWords_deckWords_of_ignoresDeals hignores, runWords_deckWords_of_ignoresDeals hignores]
        · exact ih (by omega) (phase_ne_idle_of_wordCase hcase (by simp [eq_closeWord_iff]) (by simp [eq_clrWord_iff]))
      exact (runWords_cons _ ht).trans (hrest.trans (runWords_cons _ ht).symm)

/-- Settles O45: OPEN and DIFF leave phase IDLE, whatever the state before, and from there the first 51 DEALs do what the
whole deck does. -/
theorem fiftySecondSymbolMakesNoDifference : Obligations.FiftySecondSymbolMakesNoDifference := by
  intro msl deck s
  obtain ⟨t, ht, -⟩ := presentWord_answers_case (encode .openStream) s
  obtain ⟨u, hu, hcase⟩ := presentWord_answers_case (encode (.diff msl)) t
  have hp : u.phase ≠ .idle := phase_ne_idle_of_wordCase hcase
    (by simp [eq_closeWord_iff, decode_encode_diff]) (by simp [eq_clrWord_iff, decode_encode_diff])
  obtain ⟨v, hv⟩ := runWords_answers_next (deckWords deck) u
  have hv51 := (runWords_deckWords_take (k := Config.encN) (Nat.le_add_left ..) hp deck).trans hv
  rw [record51Words, recordWords, recordWords, runWords_cons _ ht, runWords_cons _ ht, runWords_cons _ hu,
    runWords_cons _ hu, runWords_append _ hv, runWords_append _ hv51]

end Sys2Proof.Safety
end

section
/-! SUPPORT. The proofs of the statements of 40_rank_encoder.md: the width schedule (R91, R92), ranks fit their fields
(R94), the ranks of a permutation are its Lehmer code (R95), and what DEAL does in every phase (R96 to R99). -/

namespace Sys2Proof.Machine

/-! ## The width schedule -/

/-- The width of a position as R91 writes it. -/
theorem fieldWidth_eq_clog2 (n : Nat) : fieldWidth n = clog2 (52 - n) := rfl

/-- `clog2` between two neighbouring powers of two. -/
theorem clog2_eq_succ {r w : Nat} (hlo : 2 ^ w < r) (hhi : r ≤ 2 ^ (w + 1)) : clog2 r = w + 1 :=
  Nat.le_antisymm ((clog2_le_iff r (w + 1)).2 hhi)
    (Nat.lt_of_not_le fun h => Nat.not_le.2 hlo ((clog2_le_iff r w).1 h))

/-- The table of R91: the number of symbols left, 52 - n, falls from one power of two to the next. -/
theorem fieldWidth_eq_table {n : Nat} (hn : n ≤ 50) : fieldWidth n =
    if n ≤ 19 then 6 else if n ≤ 35 then 5 else if n ≤ 43 then 4 else if n ≤ 47 then 3 else if n ≤ 49 then 2 else 1 := by
  rw [fieldWidth_eq_clog2]
  split_ifs <;> exact clog2_eq_succ (by omega) (by omega)

/-- Settles O33: the sum is that of a record's stream without the difficulty's 7 bits. -/
theorem widthScheduleIsTheTable : Obligations.WidthScheduleIsTheTable := by
  refine ⟨fun n hn => ⟨fieldWidth_eq_clog2 n, fieldWidth_eq_table hn⟩, ?_⟩
  have hsum := Safety.diffW_add_scheduleBits
  rw [Safety.scheduleBits, ← List.range_eq_range'] at hsum
  omega

/-! ## Ranks fit their fields -/

/-- A flag that is 1 is counted by `popcount_below` at the next index. -/
theorem popcountBelow_succ_of_flag {a : Vector Bool 52} {k : Nat} (h : availFlag a k = true) :
    popcountBelow a (k + 1) = popcountBelow a k + 1 := by
  simp [popcountBelow, List.range_succ, h]

theorem popcountBelow_mono (a : Vector Bool 52) {j k : Nat} (h : j ≤ k) : popcountBelow a j ≤ popcountBelow a k :=
  (List.range_sublist.2 h).countP_le

/-- Each of the 52 flags is 1 or 0 (10_state.md R25). -/
theorem popcountBelow_add_clearedFlags (a : Vector Bool 52) : popcountBelow a 52 + Safety.clearedFlags a = 52 := by
  simpa [popcountBelow, Safety.clearedFlags] using
    (List.length_eq_countP_add_countP (availFlag a) (l := List.range 52)).symm

/-- The rank of an available symbol is below the number of available symbols (40_rank_encoder.md R94). -/
theorem rank_lt_popcountBelow {a : Vector Bool 52} {sym : BitVec 6} (hs : sym.toNat < 52)
    (h : availFlag a sym.toNat = true) : rank a sym < popcountBelow a 52 :=
  calc rank a sym < popcountBelow a (sym.toNat + 1) := (popcountBelow_succ_of_flag h).symm ▸ Nat.lt_succ_self _
    _ ≤ popcountBelow a 52 := popcountBelow_mono a hs

/-- The field of position `n` holds every number below the number of symbols left (40_rank_encoder.md R91). -/
theorem symbolsLeft_le_two_pow_fieldWidth (n : Nat) : 52 - n ≤ 2 ^ fieldWidth n :=
  (clog2_le_iff (52 - n) (fieldWidth n)).1 le_rfl

/-- Settles O34: with `n` flags 0, the flags that are 1 are the 52 - n symbols left. -/
theorem rankOfAnAvailableSymbolFitsItsField : Obligations.RankOfAnAvailableSymbolFitsItsField := by
  intro a sym hs hflag
  have hrank := rank_lt_popcountBelow hs hflag
  refine ⟨hrank, fun n hn hcleared => ?_⟩
  have htotal := popcountBelow_add_clearedFlags a
  have hwidth := symbolsLeft_le_two_pow_fieldWidth n
  exact ⟨by omega, by omega⟩

/-! ## The Lehmer code -/

/-- AVAIL after DEALs of these symbols (40_rank_encoder.md R96). -/
def clearFlags (deck : List (BitVec 6)) (a : Vector Bool 52) : Vector Bool 52 :=
  deck.foldl (fun a sym => a.setIfInBounds sym.toNat false) a

/-- Clearing the flags of some symbols leaves the others' (10_state.md R21). -/
theorem availFlag_clearFlags {deck : List (BitVec 6)} (hdeck : ∀ sym ∈ deck, sym.toNat < 52) (a : Vector Bool 52)
    (k : Nat) : availFlag (clearFlags deck a) k = (availFlag a k && decide (k ∉ deck.map BitVec.toNat)) := by
  induction deck generalizing a with
  | nil => simp [clearFlags]
  | cons sym deck ih =>
    have hrest := ih (fun x hx => hdeck x (List.mem_cons_of_mem _ hx)) (a.setIfInBounds sym.toNat false)
    rw [availFlag_setIfInBounds a _ k (hdeck sym List.mem_cons_self)] at hrest
    exact hrest.trans (by simp [Bool.and_assoc])

/-- `popcount_below` counted over the whole alphabet (00_scope.md R12). -/
theorem popcountBelow_eq_countP_alphabet (a : Vector Bool 52) {k : Nat} (hk : k ≤ 52) :
    popcountBelow a k = (List.range 52).countP fun j => decide (j < k) && availFlag a j := by
  obtain ⟨m, hm⟩ := Nat.exists_eq_add_of_le hk
  have hbelow : (List.range k).countP (fun j => decide (j < k) && availFlag a j) = popcountBelow a k :=
    List.countP_congr fun j hj => by simp [List.mem_range.1 hj]
  have habove : ((List.range m).map (k + ·)).countP (fun j => decide (j < k) && availFlag a j) = 0 := by
    simp [List.countP_eq_zero]
  rw [hm, List.range_add, List.countP_append, hbelow, habove, Nat.add_zero]

end Sys2Proof.Machine

namespace Sys2Proof.Safety

open Sys2Proof.Machine

/-- A permutation's symbols are those of the alphabet (00_scope.md R16). -/
theorem toNat_lt_of_isPermutation {deck : List (BitVec 6)} (h : IsPermutation deck) {sym : BitVec 6}
    (hsym : sym ∈ deck) : sym.toNat < 52 :=
  List.mem_range.1 (h.mem_iff.1 (List.mem_map_of_mem hsym))

theorem nodup_of_isPermutation {deck : List (BitVec 6)} (h : IsPermutation deck) : (deck.map BitVec.toNat).Nodup :=
  h.nodup_iff.2 List.nodup_range

/-- `rank` counted over the symbols of a permutation, in any order of theirs. -/
theorem rank_eq_countP_of_isPermutation {deck : List (BitVec 6)} (h : IsPermutation deck) (a : Vector Bool 52)
    {sym : BitVec 6} (hsym : sym.toNat < 52) :
    rank a sym = deck.countP fun k => decide (k.toNat < sym.toNat) && availFlag a k.toNat := by
  rw [rank, popcountBelow_eq_countP_alphabet a hsym.le, ← h.countP_eq, List.countP_map]
  rfl

/-- When the flags left are those of the later symbols, the rank of the next one counts the smaller of them. -/
theorem rank_eq_countP_later {before later : List (BitVec 6)} {sym : BitVec 6} {a : Vector Bool 52}
    (h : IsPermutation (before ++ sym :: later)) (hgone : ∀ k ∈ before, availFlag a k.toNat = false)
    (hleft : ∀ k ∈ later, availFlag a k.toNat = true) :
    rank a sym = later.countP fun k => decide (k.toNat < sym.toNat) := by
  have hbefore : before.countP (fun k => decide (k.toNat < sym.toNat) && availFlag a k.toNat) = 0 :=
    List.countP_eq_zero.2 fun k hk => by simp [hgone k hk]
  have hlater : later.countP (fun k => decide (k.toNat < sym.toNat) && availFlag a k.toNat) =
      later.countP fun k => decide (k.toNat < sym.toNat) := List.countP_congr fun k hk => by simp [hleft k hk]
  rw [rank_eq_countP_of_isPermutation h a (toNat_lt_of_isPermutation h (by simp)), List.countP_append,
    List.countP_cons, hbefore, hlater]
  simp

/-- Of a permutation's symbols the flags of those dealt are 0, those of the others 1 (40_rank_encoder.md R95). -/
theorem availFlag_clearFlags_of_isPermutation {before rest : List (BitVec 6)} (h : IsPermutation (before ++ rest)) :
    (∀ k ∈ before, availFlag (clearFlags before (Vector.replicate 52 true)) k.toNat = false) ∧
      ∀ k ∈ rest, availFlag (clearFlags before (Vector.replicate 52 true)) k.toNat = true := by
  have hdisjoint := List.disjoint_of_nodup_append (List.map_append ▸ nodup_of_isPermutation h)
  have hflag := availFlag_clearFlags
    (fun k hk => toNat_lt_of_isPermutation h (List.mem_append_left _ hk)) (Vector.replicate 52 true)
  constructor <;> intro k hk
  · rw [hflag, decide_eq_false (not_not.2 (List.mem_map_of_mem hk)), Bool.and_false]
  · have hk52 : k.toNat < 52 := toNat_lt_of_isPermutation h (List.mem_append_right _ hk)
    have hnotMem : k.toNat ∉ before.map BitVec.toNat := hdisjoint.symm (List.mem_map_of_mem hk)
    rw [hflag, availFlag_replicate_true, decide_eq_true hk52, decide_eq_true hnotMem, Bool.and_true]

/-- Settles O35: cut at the position, the deck is the symbols dealt, the symbol, and the later ones. -/
theorem ranksAreTheLehmerCode : Obligations.RanksAreTheLehmerCode := by
  intro deck n sym h hsym
  obtain ⟨hn, rfl⟩ := List.getElem?_eq_some_iff.1 hsym
  have hcut : deck.take n ++ deck[n] :: deck.drop (n + 1) = deck := by
    rw [List.getElem_cons_drop, List.take_append_drop]
  rw [← hcut] at h
  obtain ⟨hgone, hleft⟩ := availFlag_clearFlags_of_isPermutation h
  exact rank_eq_countP_later h hgone fun k hk => hleft k (List.mem_cons_of_mem _ hk)

end Sys2Proof.Safety

namespace Sys2Proof.Machine

/-! ## DEAL -/

/-- The word of DEAL written as a number (30_encoding.md R73). -/
theorem ofNat_dealWord (sym : BitVec 6) : BitVec.ofNat 16 (0x3000 + sym.toNat) = encode (.deal sym) := by
  rw [← encode_deal_toNat, BitVec.ofNat_toNat, BitVec.setWidth_eq]

/-- DEAL does what its word does (60_exceptions.md R168). -/
theorem exec_deal_of_case {sym : BitVec 6} {s t : State} (h : WordCase (encode (.deal sym)) s t) :
    exec (.deal sym) s = .next t :=
  (presentWord_eq_exec (decode_encode_deal sym) s).symm.trans (presentWord_of_case h)

/-- Everything a processed DEAL does to the stream and the fields outside AVAIL and N (40_rank_encoder.md R96): Pack's
effect, as the symbol's own writes are to AVAIL and N only. -/
theorem dealt_packed (sym : BitVec 6) (s : State) :
    Safety.streamBits (Safety.dealt sym s) = Safety.streamBits s ++ fieldBits (rank s.avail sym) (fieldWidth s.n) ∧
      (Safety.LowClear s → Safety.LowClear (Safety.dealt sym s)) ∧
      Safety.dealt sym s = { s with
        avail := (Safety.dealt sym s).avail, n := (Safety.dealt sym s).n, acc := (Safety.dealt sym s).acc,
        cur := (Safety.dealt sym s).cur, rbuf := (Safety.dealt sym s).rbuf } := by
  obtain ⟨hbits, hlow, hframe⟩ := Safety.pack_packed (rank s.avail sym) (fieldWidth s.n) (consumeSymbol sym s)
  refine ⟨hbits, hlow, ?_⟩
  rw [Safety.dealt, pack_avail, pack_n]
  exact hframe

/-- Settles O20: each clause is a case of DEAL's word. -/
theorem dealPacksTheRankAndConsumesTheSymbol : Obligations.DealPacksTheRankAndConsumesTheSymbol := by
  intro sym s
  have hd := decode_encode_deal sym
  rw [ofNat_dealWord]
  refine ⟨hd, fun hp hn => exec_deal_of_case (.dealIgnored hp sym hd hn),
    fun hp hn hs => exec_deal_of_case (.badSymbol hp sym hd hn hs), fun hp hn hs hroom => ?dealt,
    fun hp hn hs hfull => exec_deal_of_case (.dealOverrun hp sym hd hn hs ((fits_eq_false_iff _ s).2 hfull)),
    fun hp => exec_deal_of_case (.outOfPhase hp _ hd (by simp) (by simp)), fun hp => exec_of_halted (by simp) hp⟩
  case dealt =>
    obtain ⟨hbits, hlow, hframe⟩ := dealt_packed sym s
    exact ⟨Safety.dealt sym s, exec_deal_of_case (.dealt hp sym hd hn hs ((fits_iff _ s).2 hroom)), hbits, hlow,
      fun k => availFlag_dealt sym s _ _ k hs, n_dealt sym s _ _ hn, hframe⟩

end Sys2Proof.Machine
end

section
/-! SUPPORT. The proofs of the statements of 41_bit_packer.md: Pack reads only the low bits of its value (R112), the open
stream as numbers, from which its closed form (R114) and the stream law (R115) follow, and PUSH (R116, R118, R119). -/

namespace Sys2Proof.Safety

open Sys2Proof.Machine

/-! ## Pack and the bits of its field -/

/-- Pack is its loop over the bits of the field (41_bit_packer.md R111). -/
theorem pack_eq_foldl_packBit (v w : Nat) (s : State) :
    pack v w s = (fieldBits v w).foldl (fun s b => packBit b s) s := by
  induction w generalizing s with
  | zero => rfl
  | succ w ih => rw [pack, ih, fieldBits, List.foldl_cons]

/-- A field is determined by the bits below its width. -/
theorem fieldBits_congr {u v w : Nat} (h : ∀ j < w, u.testBit j = v.testBit j) : fieldBits u w = fieldBits v w := by
  induction w with
  | zero => rfl
  | succ w ih => rw [fieldBits, fieldBits, h w w.lt_succ_self, ih fun j hj => h j (hj.trans w.lt_succ_self)]

/-- A field has the low bits of its value (00_scope.md R12, `low`). -/
theorem fieldBits_mod (v w : Nat) : fieldBits (v % 2 ^ w) w = fieldBits v w :=
  fieldBits_congr fun j hj => by rw [Nat.testBit_mod_two_pow, decide_eq_true hj, Bool.true_and]

/-- Settles O36: Pack's loop runs over the field's bits. -/
theorem packUsesTheLowBitsOnly : Obligations.PackUsesTheLowBitsOnly := fun v w s => by
  rw [pack_eq_foldl_packBit, pack_eq_foldl_packBit, fieldBits_mod]

/-- Pack does to the stream what packing the value's low bits does (41_bit_packer.md R112). -/
theorem pack_packed_low (v w : Nat) (s : State) : Packed (v % 2 ^ w) w s (pack v w s) := by
  rw [packUsesTheLowBitsOnly v w s]
  exact pack_packed ..

/-! ## Bits as numbers -/

@[simp] theorem bitsValue_nil : bitsValue [] = 0 := rfl

theorem bitsValue_concat (xs : List Bool) (b : Bool) : bitsValue (xs ++ [b]) = 2 * bitsValue xs + b.toNat := by
  rw [bitsValue, List.foldl_concat, bitsValue]

/-- Bits written after others move them up by their own number. -/
theorem bitsValue_append (xs ys : List Bool) :
    bitsValue (xs ++ ys) = bitsValue xs * 2 ^ ys.length + bitsValue ys := by
  induction ys using List.reverseRecOn with
  | nil => simp
  | append_singleton ys b ih =>
    rw [← List.append_assoc, bitsValue_concat, ih, bitsValue_concat, List.length_append, List.length_singleton]
    ring

theorem bitsValue_lt (bits : List Bool) : bitsValue bits < 2 ^ bits.length := by
  induction bits using List.reverseRecOn with
  | nil => decide
  | append_singleton bits b ih =>
    have := b.toNat_lt
    rw [bitsValue_concat, List.length_append, List.length_singleton, Nat.pow_succ]
    omega

/-- The field of a value, read back, is the value's low bits. -/
@[simp] theorem bitsValue_fieldBits (v w : Nat) : bitsValue (fieldBits v w) = v % 2 ^ w := by
  induction w with
  | zero => simp [fieldBits, Nat.mod_one]
  | succ w ih =>
    calc bitsValue ([v.testBit w] ++ fieldBits v w)
        = (v.testBit w).toNat * 2 ^ w + v % 2 ^ w := by
          rw [bitsValue_append, fieldBits_length, ih]; simp [bitsValue]
      _ = v % 2 ^ (w + 1) := by rw [Nat.toNat_testBit, Nat.mod_pow_succ, Nat.add_comm, Nat.mul_comm]

@[simp] theorem bitsValue_byteBits (b : Byte) : bitsValue (byteBits b) = b.toNat := by
  rw [byteBits, bitsValue_fieldBits, Nat.mod_eq_of_lt b.isLt]

/-- The number in the first bits of a byte (10_state.md R23, ACC[7:8-c]). -/
theorem bitsValue_take_byteBits (b : Byte) (c : Nat) :
    bitsValue ((byteBits b).take c) = b.toNat / 2 ^ (8 - c) := by
  have hsplit := bitsValue_append ((byteBits b).take c) ((byteBits b).drop c)
  have hlow := bitsValue_lt ((byteBits b).drop c)
  rw [List.take_append_drop, bitsValue_byteBits] at hsplit
  rw [List.length_drop, byteBits_length] at hsplit hlow
  rw [hsplit, Nat.mul_comm, Nat.mul_add_div (Nat.two_pow_pos _), Nat.div_eq_of_lt hlow, Nat.add_zero]

/-- The field that stands between two parts of a stream. -/
theorem fieldAt_middle (xs ys zs : List Bool) : fieldAt (xs ++ (ys ++ zs)) xs.length ys.length = bitsValue ys := by
  rw [fieldAt, List.drop_left, List.take_left]

/-! ## The open stream as numbers -/

/-- The filled bits of ACC, the stream's bits that make no whole byte yet (10_state.md R23, R24). -/
def pendingBits (s : State) : List Bool := (byteBits s.acc).take s.cur

theorem streamBits_eq (s : State) : streamBits s = bytesBits s.rbuf ++ pendingBits s := rfl

@[simp] theorem pendingBits_length (s : State) : (pendingBits s).length = s.cur := by
  rw [pendingBits, List.length_take, byteBits_length, Nat.min_eq_left s.cur.isLt.le]

/-- The pending bits as a number (41_bit_packer.md R114, ACC[7:8-c]). -/
theorem bitsValue_pendingBits (s : State) : bitsValue (pendingBits s) = s.acc.toNat / 2 ^ (8 - (s.cur : Nat)) :=
  bitsValue_take_byteBits s.acc s.cur

/-- With zeros below them the pending bits are all of ACC. -/
theorem acc_eq_of_lowClear {s : State} (h : LowClear s) :
    s.acc.toNat = bitsValue (pendingBits s) * 2 ^ (8 - (s.cur : Nat)) := by
  rw [bitsValue_pendingBits, Nat.div_mul_cancel (Nat.dvd_of_mod_eq_zero h)]

theorem bytesBits_cons (b : Byte) (bs : List Byte) : bytesBits (b :: bs) = byteBits b ++ bytesBits bs :=
  List.flatMap_cons

/-- A byte of RBUF is the field that the stream's bits hold at its place (20_memory.md R52). -/
theorem fieldAt_streamBits_byte {s : State} {j : Nat} (hj : j < s.rbuf.length) :
    fieldAt (streamBits s) (8 * j) 8 = s.rbuf[j].toNat := by
  have hsplit : streamBits s = bytesBits (s.rbuf.take j) ++
      (byteBits s.rbuf[j] ++ (bytesBits (s.rbuf.drop (j + 1)) ++ pendingBits s)) := by
    rw [← List.append_assoc (byteBits _), ← bytesBits_cons, ← List.append_assoc, ← bytesBits_append,
      ← List.drop_eq_getElem_cons hj, List.take_append_drop, streamBits_eq]
  have h := fieldAt_middle (bytesBits (s.rbuf.take j)) (byteBits s.rbuf[j])
    (bytesBits (s.rbuf.drop (j + 1)) ++ pendingBits s)
  rwa [← hsplit, bytesBits_length, List.length_take_of_le hj.le, byteBits_length, bitsValue_byteBits] at h

/-- The pending bits are the field after the whole bytes. -/
theorem fieldAt_streamBits_pending (s : State) :
    fieldAt (streamBits s) (8 * s.rbuf.length) s.cur = bitsValue (pendingBits s) := by
  simpa [streamBits_eq] using fieldAt_middle (bytesBits s.rbuf) (pendingBits s) []

/-- RBCNT and CUR are determined by the stream's length (10_state.md R26). -/
theorem rbcnt_and_cur_of_streamLength (s : State) :
    s.rbuf.length = streamLength s / 8 ∧ (s.cur : Nat) = streamLength s % 8 := by
  have := s.cur.isLt
  unfold streamLength
  omega

/-! ## The stream law -/

/-- Several pairs append their fields' bits in order, and keep the unfilled bits of ACC zero (41_bit_packer.md R115). -/
theorem packAll_streamBits_and_lowClear (pairs : List (Nat × Nat)) (s : State) :
    streamBits (packAll pairs s) = streamBits s ++ pairs.flatMap (fun p => fieldBits p.1 p.2) ∧
      (LowClear s → LowClear (packAll pairs s)) := by
  induction pairs generalizing s with
  | nil => exact ⟨(List.append_nil _).symm, id⟩
  | cons p pairs ih =>
    obtain ⟨hbits, hlow, -⟩ := pack_packed p.1 p.2 s
    obtain ⟨hbits', hlow'⟩ := ih (pack p.1 p.2 s)
    exact ⟨by rw [packAll, List.foldl_cons, ← packAll, hbits', hbits, List.flatMap_cons, List.append_assoc],
      fun h => hlow' (hlow h)⟩

/-- Settles O38: the bits are the stream's, and each clause reads the stream as numbers. -/
theorem streamLaw : Obligations.StreamLaw := by
  intro pairs s hrbuf hacc hcur t bits ht hb
  obtain ⟨happend, hlow⟩ := packAll_streamBits_and_lowClear pairs s
  have hempty : streamBits s = [] := by simp [streamBits, hrbuf, hcur]
  have hclear : LowClear t := ht ▸ hlow (by simp [LowClear, hacc])
  obtain rfl : streamBits t = bits := by rw [ht, hb, happend, hempty, List.nil_append]
  rw [streamBits_length]
  refine ⟨(rbcnt_and_cur_of_streamLength t).1, (rbcnt_and_cur_of_streamLength t).2, fun j hj => ?_, ?_⟩
  · rw [List.getElem?_eq_getElem hj, Option.map_some, fieldAt_streamBits_byte hj]
  · rw [fieldAt_streamBits_pending]
    exact acc_eq_of_lowClear hclear

/-! ## The closed form -/

/-- Pack leaves the completed bytes where they are (41_bit_packer.md R111). -/
theorem rbuf_prefix_pack (v w : Nat) (s : State) : s.rbuf <+: (pack v w s).rbuf := by
  induction w generalizing s with
  | zero => exact List.prefix_rfl
  | succ w ih =>
    have hbit : s.rbuf <+: (packBit (v.testBit w) s).rbuf := by
      unfold packBit
      split
      · exact List.prefix_append ..
      · exact List.prefix_rfl
    exact hbit.trans (ih _)

/-- Pack behind the completed bytes: the pending bits and the field's make the bytes it completes and the bits that are
then pending. -/
theorem exists_bytes_completed_by_pack (v w : Nat) (s : State) : ∃ done : List Byte,
    (pack v w s).rbuf = s.rbuf ++ done ∧
      bytesBits done ++ pendingBits (pack v w s) = pendingBits s ++ fieldBits v w := by
  obtain ⟨done, hdone⟩ := rbuf_prefix_pack v w s
  have hbits := (pack_packed v w s).1
  rw [streamBits_eq, streamBits_eq, ← hdone, bytesBits_append, List.append_assoc, List.append_assoc] at hbits
  exact ⟨done, hdone.symm, List.append_cancel_left hbits⟩

/-- X of R114 is the number of the pending bits and the field's. -/
theorem bitsValue_pendingBits_append_fieldBits (v w : Nat) (s : State) :
    bitsValue (pendingBits s ++ fieldBits v w) = s.acc.toNat / 2 ^ (8 - (s.cur : Nat)) * 2 ^ w + v % 2 ^ w := by
  rw [bitsValue_append, bitsValue_pendingBits, fieldBits_length, bitsValue_fieldBits]

/-- Settles O37: as t is at most 15, Pack completes no byte or one. -/
theorem packHasTheClosedForm : Obligations.PackHasTheClosedForm := by
  intro v w s hw hclear t x ht hx
  obtain ⟨done, hdone, hbits⟩ := exists_bytes_completed_by_pack v w s
  have hacc := acc_eq_of_lowClear ((pack_packed v w s).2.1 hclear)
  rw [← bitsValue_pendingBits_append_fieldBits, ← hbits] at hx
  have hlen : 8 * done.length + ((pack v w s).cur : Nat) = t := by
    simpa [ht] using congrArg List.length hbits
  have hcur_lt := (pack v w s).cur.isLt
  have hcur₀_lt := s.cur.isLt
  match done with
  | [] =>
    have hcur : ((pack v w s).cur : Nat) = t := by simpa using hlen
    refine ⟨fun _ => ⟨hcur, ?_, by rw [hdone, List.append_nil]⟩, fun h => absurd h (by omega)⟩
    rw [hacc, hcur, hx, bytesBits_nil, List.nil_append]
  | [b] =>
    replace hlen : 8 + ((pack v w s).cur : Nat) = t := by simpa using hlen
    have hcur : ((pack v w s).cur : Nat) = t - 8 := by omega
    have hlt := bitsValue_lt (pendingBits (pack v w s))
    rw [pendingBits_length, hcur] at hlt
    rw [bytesBits_singleton, bitsValue_append, bitsValue_byteBits, pendingBits_length, hcur, Nat.mul_comm] at hx
    refine ⟨fun h => absurd h (by omega), fun _ => ⟨hcur, ?_, b, hdone, ?_⟩⟩
    · rw [hacc, hcur, hx, Nat.mul_add_mod, Nat.mod_eq_of_lt hlt, show 8 - (t - 8) = 16 - t by omega]
    · rw [hx, Nat.mul_add_div (Nat.two_pow_pos _), Nat.div_eq_of_lt hlt, Nat.add_zero]
  | _ :: _ :: _ => simp at hlen; omega

end Sys2Proof.Safety

namespace Sys2Proof.Machine

/-! ## PUSH -/

/-- The word of PUSH written as a number (30_encoding.md R73). -/
theorem ofNat_pushWord (wid : BitVec 4) (val : BitVec 8) :
    BitVec.ofNat 16 (0x4000 + 256 * wid.toNat + val.toNat) = encode (.push wid val) := by
  apply BitVec.eq_of_toNat_eq
  have := wid.isLt
  have := val.isLt
  simp only [encode, toNat_append_eq_add, BitVec.toNat_ofNat]
  omega

/-- The word of PUSH with a width above 8 is illegal (30_encoding.md R80). -/
theorem legal_encode_push_of_tooWide {wid : BitVec 4} (hwid : Config.widMax < wid.toNat) (val : BitVec 8) :
    legal (encode (.push wid val)) = false := by
  rw [legal_eq_false_iff, encode, decode_of_opField_push (opField_append 0x4#4 wid val), decodePush, widField_append,
    if_neg (Nat.not_le.2 hwid)]
  exact ⟨_, rfl⟩

/-- PUSH of an accepted width does what its word does (60_exceptions.md R168). -/
theorem exec_push_of_case {wid : BitVec 4} (hwid : wid.toNat ≤ Config.widMax) {val : BitVec 8} {s t : State}
    (h : WordCase (encode (.push wid val)) s t) : exec (.push wid val) s = .next t :=
  (presentWord_eq_exec (decode_encode_push hwid val) s).symm.trans (presentWord_of_case h)

/-- Settles O21: each clause is a case of PUSH's word. -/
theorem pushPacksTheLowBits : Obligations.PushPacksTheLowBits := by
  intro wid val s
  rw [ofNat_pushWord]
  refine ⟨fun hwid => legal_encode_push_of_tooWide hwid val, fun hwid => ?_⟩
  have hd := decode_encode_push hwid val
  exact ⟨hd,
    fun hp hroom => ⟨_, exec_push_of_case hwid (.pushed hp wid val hd ((fits_iff _ s).2 hroom)), Safety.pack_packed_low ..⟩,
    fun hp hfull => exec_push_of_case hwid (.pushOverrun hp wid val hd ((fits_eq_false_iff _ s).2 hfull)),
    fun hp => exec_push_of_case hwid (.outOfPhase hp _ hd (by simp) (by simp)),
    fun hp => exec_of_halted (by simp) hp⟩

/-- Settles O22: a pair of width 0 always fits, and Pack's loop makes no pass. -/
theorem pushOfWidthZeroChangesNothing : Obligations.PushOfWidthZeroChangesNothing := by
  intro val s
  have hwid : (0 : BitVec 4).toNat ≤ Config.widMax := by decide
  have hd := decode_encode_push hwid val
  have hword : BitVec.ofNat 16 (0x4000 + val.toNat) = encode (.push 0 val) := ofNat_pushWord 0 val
  rw [hword]
  exact ⟨fun hp hroom => exec_push_of_case hwid (.pushed hp 0 val hd ((fits_iff 0 s).2 hroom)),
    fun hp => exec_push_of_case hwid (.outOfPhase hp _ hd (by simp) (by simp))⟩

end Sys2Proof.Machine
end

section
/-! SUPPORT. The proofs of the statements of 42_record_sequencer.md: the phase machine (R130), OPEN, DIFF, CLOSE and CLR
in every phase (R131 to R139), and a canonical record: its size (R142), the state after it (R143), its layout (R141) and
that the reference decoder reads it back (R144). -/

namespace Sys2Proof.Machine

/-! ## OPEN, DIFF, CLOSE, CLR -/

/-- An operation that its word decodes to does what its word does (60_exceptions.md R168). -/
theorem exec_of_case {i : Instr} (hd : decode (encode i) = .instr i) {s t : State} (h : WordCase (encode i) s t) :
    exec i s = .next t :=
  (presentWord_eq_exec hd s).symm.trans (presentWord_of_case h)

/-- Settles O17: each clause is a case of OPEN's word. -/
theorem openBeginsAFreshStreamFromIdleOnly : Obligations.OpenBeginsAFreshStreamFromIdleOnly := by
  have hd : decode (encode .openStream) = .instr .openStream := by decide
  exact ⟨hd, fun s => ⟨fun hp => exec_of_case hd (.opened hp rfl), fun hp => exec_of_case hd (.openedTwice hp rfl),
    fun hp => exec_of_halted (by simp) hp⟩⟩

/-- The difficulty without a subtraction: -52 and 76 are the same modulo 128 (42_record_sequencer.md R133). -/
theorem difficulty_eq_mod (msl : BitVec 8) : difficulty msl = (msl.toNat + 76) % 128 := by
  unfold difficulty Config.diffBias
  omega

/-- Settles O19: one reduction modulo 128 on each of the three ranges. -/
theorem difficultyIsExactInRangeAndWrapsOutside : Obligations.DifficultyIsExactInRangeAndWrapsOutside := by
  intro msl
  have hlt := msl.isLt
  have hlow : ((msl - 52).extractLsb' 0 7).toNat = (msl.toNat + 76) % 128 := by
    have hbias : (52 : BitVec 8).toNat = 52 := rfl
    rw [BitVec.extractLsb'_toNat, BitVec.toNat_sub, Nat.shiftRight_zero, hbias]
    omega
  rw [hlow, difficulty_eq_mod]
  exact ⟨by omega, by omega, by omega, rfl⟩

/-- The word of DIFF written as a number (30_encoding.md R73). -/
theorem ofNat_diffWord (msl : BitVec 8) : BitVec.ofNat 16 (0x2000 + msl.toNat) = encode (.diff msl) := by
  apply BitVec.eq_of_toNat_eq
  have := msl.isLt
  simp only [encode, toNat_append_eq_add, BitVec.toNat_ofNat]
  omega

/-- Settles O18: each clause is a case of DIFF's word. -/
theorem diffPacksTheDifficulty : Obligations.DiffPacksTheDifficulty := by
  intro msl s
  have hd := Safety.decode_encode_diff msl
  rw [ofNat_diffWord]
  exact ⟨hd,
    fun hp hroom => ⟨_, exec_of_case hd (.diffed hp msl hd ((fits_iff 7 s).2 hroom)), Safety.pack_packed ..⟩,
    fun hp hfull => exec_of_case hd (.diffOverrun hp msl hd ((fits_eq_false_iff 7 s).2 hfull)),
    fun hp => exec_of_case hd (.outOfPhase hp _ hd (by simp) (by simp)),
    fun hp => exec_of_halted (by simp) hp⟩

/-- Settles O23: each clause is a case of CLOSE's word. -/
theorem closeCommitsTheCompletedBytes : Obligations.CloseCommitsTheCompletedBytes := by
  have hd : decode (encode .close) = .instr .close := by decide
  refine ⟨hd, fun s => ⟨fun hp => ?_, fun hp => exec_of_case hd (.outOfPhase hp _ hd (by simp) (by simp)),
    fun hp => exec_of_halted (by simp) hp⟩⟩
  rw [exec_of_case hd (.closed hp rfl), commit_finalize]

/-- Settles O26: CLR's meaning is the update of every register. -/
theorem clrGivesTheResetState : Obligations.ClrGivesTheResetState :=
  ⟨by decide, fun _ => rfl⟩

/-! ## The phase machine -/

/-- A word in a state has one outcome: any case it is in gives it. -/
theorem WordCase.unique {w : Word} {s t u : State} (ht : WordCase w s t) (hu : WordCase w s u) : t = u := by
  have h := (presentWord_of_case ht).symm.trans (presentWord_of_case hu)
  injection h

/-- CLR leads to IDLE, from every phase. -/
theorem phase_of_clr {w : Word} {s t : State} (h : WordCase w s t) (hd : decode w = .instr .clr) : t.phase = .idle := by
  rw [h.unique (.cleared ((eq_clrWord_iff w).2 hd)), resetRegisters_phase]

/-- An illegal word outside HALT leads to HALT with ILLCMD (60_exceptions.md R161). -/
theorem halted_of_illegal {w : Word} {s t : State} (h : WordCase w s t) (hp : s.phase ≠ .halted)
    (hw : legal w = false) : t.phase = .halted ∧ t.cause = .illcmd := by
  obtain ⟨r, hd⟩ := (legal_eq_false_iff w).1 hw
  rw [h.unique (.illegal hp r hd)]
  exact ⟨rfl, rfl⟩

/-- DIFF in phase OPEN stays there or raises OVERRUN. -/
theorem phase_of_diff {w : Word} {s t : State} (h : WordCase w s t) (hp : s.phase = .opened) {msl : BitVec 8}
    (hd : decode w = .instr (.diff msl)) : t.phase = .opened ∨ (t.phase = .halted ∧ t.cause = .overrun) := by
  cases hf : fits 7 s with
  | true => rw [h.unique (.diffed hp msl hd hf), pack_phase]; exact .inl hp
  | false => rw [h.unique (.diffOverrun hp msl hd hf)]; exact .inr ⟨rfl, rfl⟩

/-- PUSH in phase OPEN stays there or raises OVERRUN. -/
theorem phase_of_push {w : Word} {s t : State} (h : WordCase w s t) (hp : s.phase = .opened) {wid : BitVec 4}
    {val : BitVec 8} (hd : decode w = .instr (.push wid val)) :
    t.phase = .opened ∨ (t.phase = .halted ∧ t.cause = .overrun) := by
  cases hf : fits wid.toNat s with
  | true => rw [h.unique (.pushed hp wid val hd hf), pack_phase]; exact .inl hp
  | false => rw [h.unique (.pushOverrun hp wid val hd hf)]; exact .inr ⟨rfl, rfl⟩

/-- DEAL in phase OPEN stays there or raises BADSYM or OVERRUN. -/
theorem phase_of_deal {w : Word} {s t : State} (h : WordCase w s t) (hp : s.phase = .opened) {sym : BitVec 6}
    (hd : decode w = .instr (.deal sym)) :
    t.phase = .opened ∨ (t.phase = .halted ∧ (t.cause = .badsym ∨ t.cause = .overrun)) := by
  rw [← presentWord_eq_next_iff, presentWord_deal hp hd] at h
  cases h
  rcases dealInOpen_cases sym s with ⟨-, e⟩ | ⟨-, -, e⟩ | ⟨-, -, -, e⟩ | ⟨-, -, -, e⟩ <;> rw [e]
  · exact .inl hp
  · exact .inr ⟨rfl, .inl rfl⟩
  · exact .inr ⟨rfl, .inr rfl⟩
  · rw [pack_phase]; exact .inl hp

/-- HALT is left by CLR only (60_exceptions.md R171). -/
theorem phase_of_halted {w : Word} {s t : State} (h : WordCase w s t) (hp : s.phase = .halted) :
    t.phase = if w = 0xF000 then .idle else .halted := by
  split
  next hw => rw [h.unique (.cleared hw), resetRegisters_phase]
  next hw => rw [h.unique (.ignored hp hw), hp]

/-- Settles O12, row by row and cell by cell. -/
theorem phaseMachineFollowsItsTable : Obligations.PhaseMachineFollowsItsTable := by
  intro w s
  obtain ⟨t, ht, h⟩ := presentWord_answers_case w s
  refine ⟨t, (step_presentNext w s).trans ht, fun hp => ?idle, fun hp => ?opened, phase_of_halted h⟩
  case idle =>
    refine ⟨fun hd => ?_, phase_of_clr h, fun i hd h1 h2 => ?_, halted_of_illegal h (by simp [hp])⟩
    · rw [h.unique (.opened hp ((eq_openWord_iff w).2 hd)), beginStream_phase]
    · rw [h.unique (.outOfPhase hp i hd h1 h2)]
      exact ⟨rfl, rfl⟩
  case opened =>
    refine ⟨fun hd => ?_, fun _ => phase_of_diff h hp, fun _ => phase_of_deal h hp, fun _ _ => phase_of_push h hp,
      fun hd => ?_, phase_of_clr h, halted_of_illegal h (by simp [hp])⟩
    · rw [h.unique (.openedTwice hp ((eq_openWord_iff w).2 hd))]
      exact ⟨rfl, rfl⟩
    · rw [h.unique (.closed hp ((eq_closeWord_iff w).2 hd)), commit_phase]

end Sys2Proof.Machine

namespace Sys2Proof.Safety

open Sys2Proof.Machine

/-! ## The size of a record and the state after it -/

/-- A record sequence without its CLOSE. -/
theorem recordWords_dropLast (msl : BitVec 8) (deck : List (BitVec 6)) :
    (recordWords msl deck).dropLast = encode .openStream :: encode (.diff msl) :: deckWords deck :=
  List.dropLast_concat (l₁ := encode .openStream :: encode (.diff msl) :: deckWords deck)

/-- A record's stream keeps WARN, CAUSE, FINFO, OUT and what is pending, as it reads none of them. -/
@[simp] theorem filledRecord_warn (msl : BitVec 8) (deck : List (BitVec 6)) (s : State) :
    (filledRecord msl deck s).warn = s.warn := by rw [filledRecord_eq_withRest]; rfl
@[simp] theorem filledRecord_cause (msl : BitVec 8) (deck : List (BitVec 6)) (s : State) :
    (filledRecord msl deck s).cause = s.cause := by rw [filledRecord_eq_withRest]; rfl
@[simp] theorem filledRecord_finfo (msl : BitVec 8) (deck : List (BitVec 6)) (s : State) :
    (filledRecord msl deck s).finfo = s.finfo := by rw [filledRecord_eq_withRest]; rfl
@[simp] theorem filledRecord_port (msl : BitVec 8) (deck : List (BitVec 6)) (s : State) :
    (filledRecord msl deck s).port = s.port := by rw [filledRecord_eq_withRest]; rfl
/-- A record's bytes before its CLOSE are the same from every state. -/
theorem filledRecord_rbuf (msl : BitVec 8) (deck : List (BitVec 6)) (s : State) :
    (filledRecord msl deck s).rbuf = recordBlock msl deck := by rw [filledRecord_eq_withRest]; rfl

/-- A record's stream is whole bytes, so its CLOSE raises no diagnostic (42_record_sequencer.md R142). -/
theorem record_warn (msl : BitVec 8) {deck : List (BitVec 6)} (hdeck : Dealable deck) (s : State) :
    (commit (finalize (filledRecord msl deck s))).warn = s.warn := by
  obtain ⟨-, -, -, hcur⟩ := filledRecord_full msl hdeck s
  simp [hcur]

/-- Settles O39: the state before CLOSE is `filledRecord`. -/
theorem everyRecordIsThirtyTwoBytes : Obligations.EveryRecordIsThirtyTwoBytes := by
  intro msl deck s hp hdeck
  obtain ⟨-, -, hlen, hcur⟩ := filledRecord_full msl hdeck s
  refine ⟨filledRecord msl deck s, _, ?_, hlen, hcur, runWords_recordWords msl hdeck hp, ?_, record_warn msl hdeck s⟩
  · rw [recordWords_dropLast, runWords_open_diff msl _ hp, runWords_deckWords_record msl hdeck]
  · rw [record_out, filledRecord_rbuf]

/-- A permutation has 52 symbols (00_scope.md R16). -/
theorem length_of_isPermutation {deck : List (BitVec 6)} (h : IsPermutation deck) : deck.length = 52 := by
  simpa using h.length_eq

/-- A permutation's first 51 symbols can be dealt (42_record_sequencer.md R140). -/
theorem dealable_of_isPermutation {deck : List (BitVec 6)} (h : IsPermutation deck) : Dealable deck :=
  ⟨by rw [length_of_isPermutation h]; decide,
    fun sym hsym => (isSymbol_iff sym).2 (toNat_lt_of_isPermutation h (List.mem_of_mem_take hsym))⟩

/-- A permutation is the 51 symbols that a record deals and the 52nd (40_rank_encoder.md R98). -/
theorem exists_last_of_isPermutation {deck : List (BitVec 6)} (h : IsPermutation deck) :
    ∃ last, deck = deck.take Config.encN ++ [last] := by
  obtain ⟨last, hlast⟩ : ∃ last, deck.drop Config.encN = [last] :=
    List.length_eq_one_iff.1 (by rw [List.length_drop, length_of_isPermutation h]; rfl)
  exact ⟨last, by rw [← hlast, List.take_append_drop]⟩

@[simp] theorem dealt_avail (sym : BitVec 6) (s : State) :
    (dealt sym s).avail = s.avail.setIfInBounds sym.toNat false := pack_avail ..

/-- DEALs clear the flags of their symbols (40_rank_encoder.md R96). -/
theorem dealtAll_avail (deck : List (BitVec 6)) (s : State) : (dealtAll deck s).avail = clearFlags deck s.avail := by
  induction deck generalizing s with
  | nil => rfl
  | cons sym deck ih => rw [dealtAll_cons, ih, dealt_avail]; rfl

@[simp] theorem openedRecord_avail (msl : BitVec 8) (s : State) :
    (openedRecord msl s).avail = Vector.replicate 52 true := pack_avail ..

/-- Of a list without repetitions the last entry is the one that is not among those before it. -/
theorem getElem?_last_eq_some_iff {front : List Nat} {last k : Nat} (hnodup : (front ++ [last]).Nodup)
    (hk : k ∈ front ++ [last]) : (front ++ [last])[front.length]? = some k ↔ k ∉ front := by
  have hlast : last ∉ front := fun h => List.disjoint_of_nodup_append hnodup h (List.mem_singleton_self last)
  rw [List.getElem?_concat_length, Option.some_inj]
  constructor
  · rintro rfl
    exact hlast
  · intro hfront
    exact (List.mem_singleton.1 ((List.mem_append.1 hk).resolve_left hfront)).symm

/-- After a record the one flag that is 1 is that of the symbol not dealt (42_record_sequencer.md R143). -/
theorem availFlag_filledRecord (msl : BitVec 8) {deck : List (BitVec 6)} (h : IsPermutation deck) (s : State) {k : Nat}
    (hk : k < 52) : availFlag (filledRecord msl deck s).avail k = true ↔ (deck.map BitVec.toNat)[51]? = some k := by
  obtain ⟨last, hlast⟩ := exists_last_of_isPermutation h
  have hmap : deck.map BitVec.toNat = (deck.take Config.encN).map BitVec.toNat ++ [last.toNat] := by
    conv_lhs => rw [hlast, List.map_append, List.map_singleton]
  have hlen : ((deck.take Config.encN).map BitVec.toNat).length = 51 := by
    rw [List.length_map, List.length_take, length_of_isPermutation h]; rfl
  have hmem : k ∈ deck.map BitVec.toNat := h.mem_iff.2 (List.mem_range.2 hk)
  have hiff := getElem?_last_eq_some_iff (hmap ▸ nodup_of_isPermutation h) (hmap ▸ hmem)
  rw [← hmap, hlen] at hiff
  rw [hiff, filledRecord, dealtAll_avail, openedRecord_avail,
    availFlag_clearFlags fun sym hsym => toNat_lt_of_isPermutation h (List.mem_of_mem_take hsym),
    availFlag_replicate_true, decide_eq_true hk, Bool.true_and, decide_eq_true_iff]

/-- STATUS after a record with no fault before it (42_record_sequencer.md R143). -/
theorem statusWord_of_idle {s : State} (hp : s.phase = .idle) (hcause : s.cause = .none) (hcur : s.cur = 0) :
    statusWord s = if s.warn then 0x0004 else 0x0000 := by
  rw [statusWord, hp, hcause, hcur]
  cases s.warn <;> rfl

/-- POS after a record (42_record_sequencer.md R143). -/
theorem posWord_of_committed {s : State} (hn : s.n = 51) (hrbuf : s.rbuf = []) : posWord s = 0x0033 := by
  rw [posWord, hn, hrbuf]
  rfl

/-- Settles O40: the fields of `filledRecord` after its commit. -/
theorem stateAfterARecord : Obligations.StateAfterARecord := by
  intro msl deck s hp h
  have hdeck := dealable_of_isPermutation h
  have hout := record_out msl deck s
  have hwarn := record_warn msl hdeck s
  obtain ⟨-, hn, -⟩ := filledRecord_full msl hdeck s
  refine ⟨_, runWords_recordWords msl hdeck hp, rfl, by simpa using hn, rfl, rfl, rfl, hwarn, by simp, by simp, by simp,
    ?_, ⟨_, hout.symm⟩, fun k hk => ?_, fun hcause => ?_, ?_⟩
  · rw [hout, List.length_append, recordBlock_length msl hdeck]
  · rw [commit_avail, finalize_avail]
    exact availFlag_filledRecord msl h s hk
  · rw [← hwarn]
    exact congrArg some (statusWord_of_idle rfl (by simpa using hcause) rfl)
  · exact congrArg some (posWord_of_committed (by simpa using hn) rfl)

/-! ## The layout of a record -/

/-- The first rank field of a deck, and those after it (40_rank_encoder.md R95). -/
theorem lehmerBits_cons (d : Nat) (later : List Nat) : lehmerBits (d :: later) =
    fieldBits (later.countP fun j => decide (j < d)) (clog2 (later.length + 1)) ++ lehmerBits later := rfl

/-- The last symbol of a deck has a rank field of no bits (40_rank_encoder.md R91). -/
@[simp] theorem lehmerBits_singleton (d : Nat) : lehmerBits [d] = [] := rfl

/-- `s` has a stream in which the symbols `before` are dealt, no other. -/
structure HasDealt (before : List (BitVec 6)) (s : State) : Prop where
  n : (s.n : Nat) = before.length
  avail : s.avail = clearFlags before (Vector.replicate 52 true)

theorem hasDealt_openedRecord (msl : BitVec 8) (s : State) : HasDealt [] (openedRecord msl s) where
  n := openedRecord_n msl s
  avail := openedRecord_avail msl s

theorem HasDealt.dealt {before : List (BitVec 6)} {s : State} (h : HasDealt before s) {sym : BitVec 6} (hn : s.n ≠ 51) :
    HasDealt (before ++ [sym]) (dealt sym s) where
  n := by rw [List.length_append, ← h.n]; exact n_dealt sym s _ _ hn
  avail := by rw [dealt_avail, h.avail, clearFlags, clearFlags, List.foldl_concat]

/-- The DEAL of a permutation's next symbol appends its Lehmer digit, in the width for the symbols left
(40_rank_encoder.md R95). -/
theorem streamBits_dealt_of_isPermutation {before later : List (BitVec 6)} {sym : BitVec 6} {s : State}
    (h : IsPermutation (before ++ sym :: later)) (hs : HasDealt before s) :
    streamBits (dealt sym s) = streamBits s ++
      fieldBits ((later.map BitVec.toNat).countP fun j => decide (j < sym.toNat)) (clog2 (later.length + 1)) := by
  obtain ⟨hgone, hleft⟩ := availFlag_clearFlags_of_isPermutation h
  have hrank : rank s.avail sym = (later.map BitVec.toNat).countP fun j => decide (j < sym.toNat) := by
    rw [hs.avail, rank_eq_countP_later h hgone fun k hk => hleft k (List.mem_cons_of_mem _ hk), List.countP_map]
    rfl
  have hwidth : fieldWidth s.n = clog2 (later.length + 1) := by
    have hlen := length_of_isPermutation h
    rw [List.length_append, List.length_cons, ← hs.n] at hlen
    rw [fieldWidth_eq_clog2, Nat.sub_eq_of_eq_add' hlen.symm]
  rw [(dealt_packed sym s).1, hrank, hwidth]

/-- The DEALs of a permutation's symbols up to the last append the Lehmer digits, in order (42_record_sequencer.md
R141). -/
theorem streamBits_dealtAll {before mid : List (BitVec 6)} {last : BitVec 6} {s : State}
    (h : IsPermutation (before ++ (mid ++ [last]))) (hs : HasDealt before s) (hfits : DeckFits mid s) :
    streamBits (dealtAll mid s) = streamBits s ++ lehmerBits ((mid ++ [last]).map BitVec.toNat) := by
  induction mid generalizing before s with
  | nil => simp [dealtAll]
  | cons sym mid ih =>
    have hrest := ih (by simpa using h) (hs.dealt (sym := sym) hfits.dealProcessed.notLast) hfits.tail
    rw [List.cons_append] at h
    rw [dealtAll_cons, hrest, streamBits_dealt_of_isPermutation h hs, List.cons_append, List.map_cons, lehmerBits_cons,
      List.length_map, List.append_assoc]

/-- The stream of a valid deck's record before its CLOSE (42_record_sequencer.md R141). -/
theorem streamBits_filledRecord (msl : BitVec 8) {deck : List (BitVec 6)} (h : IsPermutation deck) (s : State) :
    streamBits (filledRecord msl deck s) = recordBits msl deck := by
  obtain ⟨last, hlast⟩ := exists_last_of_isPermutation h
  have hfits := deckFits_openedRecord msl (dealable_of_isPermutation h) s
  have hdiff : streamBits (openedRecord msl s) = fieldBits (difficulty msl) 7 := (pack_packed ..).1
  rw [filledRecord, streamBits_dealtAll (before := []) (last := last) (hlast ▸ h) (hasDealt_openedRecord msl s) hfits,
    ← hlast, hdiff, recordBits]

/-- The bytes of a valid deck's record (42_record_sequencer.md R141). -/
theorem bytesBits_recordBlock (msl : BitVec 8) {deck : List (BitVec 6)} (h : IsPermutation deck) :
    bytesBits (recordBlock msl deck) = recordBits msl deck := by
  obtain ⟨-, -, -, hcur⟩ := filledRecord_full msl (dealable_of_isPermutation h) State.reset
  have hbits := streamBits_filledRecord msl h State.reset
  rwa [streamBits, hcur, Fin.val_zero, List.take_zero, List.append_nil] at hbits

/-- Settles O41: the bytes are those of `recordBlock`. -/
theorem recordHasTheCanonicalLayout : Obligations.RecordHasTheCanonicalLayout := fun msl deck s hp h =>
  ⟨_, recordBlock msl deck, runWords_recordWords msl (dealable_of_isPermutation h) hp, record_out msl deck s,
    bytesBits_recordBlock msl h⟩

/-! ## The reference decoder -/

/-- In an ascending list an entry has before it exactly the smaller entries. -/
theorem exists_split_of_mem_ascending {avail : List Nat} (hsorted : avail.Pairwise (· < ·)) {d : Nat} (hd : d ∈ avail) :
    ∃ below above, avail = below ++ d :: above ∧ below.length = avail.countP fun j => decide (j < d) := by
  obtain ⟨below, above, rfl⟩ := List.append_of_mem hd
  refine ⟨below, above, rfl, ?_⟩
  obtain ⟨-, hrest, hbelow⟩ := List.pairwise_append.1 hsorted
  obtain ⟨habove, -⟩ := List.pairwise_cons.1 hrest
  have hall : below.countP (fun j => decide (j < d)) = below.length :=
    List.countP_eq_length.2 fun j hj => decide_eq_true (hbelow j hj d List.mem_cons_self)
  have hnone : (d :: above).countP (fun j => decide (j < d)) = 0 :=
    List.countP_eq_zero.2 fun j hj => by
      rcases List.mem_cons.1 hj with rfl | hj
      · simp
      · simpa using (habove j hj).le
  rw [List.countP_append, hall, hnone, Nat.add_zero]

/-- A symbol of the deck stands among the available ones, ascending, at the place its Lehmer digit names. -/
theorem exists_split_of_lehmerDigit {avail later : List Nat} {d : Nat} (hsorted : avail.Pairwise (· < ·))
    (hperm : (d :: later).Perm avail) :
    ∃ below above, avail = below ++ d :: above ∧ below.length = (later.countP fun j => decide (j < d)) ∧
      later.Perm (below ++ above) ∧ (below ++ above).Pairwise (· < ·) := by
  obtain ⟨below, above, havail, hlen⟩ := exists_split_of_mem_ascending hsorted (hperm.subset List.mem_cons_self)
  rw [← hperm.countP_eq, List.countP_cons_of_neg (by simp)] at hlen
  subst havail
  exact ⟨below, above, rfl, hlen, (hperm.trans List.perm_middle).cons_inv,
    hsorted.sublist ((List.sublist_cons_self d above).append_left below)⟩

/-- The digit fits its field, which so reads back as the digit (40_rank_encoder.md R94). -/
theorem bitsValue_fieldBits_lehmerDigit (d : Nat) (later : List Nat) :
    bitsValue (fieldBits (later.countP fun j => decide (j < d)) (clog2 (later.length + 1))) =
      later.countP fun j => decide (j < d) := by
  have hdigit : (later.countP fun j => decide (j < d)) ≤ later.length := List.countP_le_length
  have hwidth := (clog2_le_iff (later.length + 1) _).1 le_rfl
  rw [bitsValue_fieldBits, Nat.mod_eq_of_lt (by omega)]

/-- The decoder's loop reads a deck back from its rank fields (42_record_sequencer.md R144). -/
theorem decodeDeck_lehmerBits {k : Nat} {deck avail : List Nat} (pre : List Bool) (hlen : deck.length = k + 1)
    (hperm : deck.Perm avail) (hsorted : avail.Pairwise (· < ·)) :
    decodeDeck (pre ++ lehmerBits deck) k pre.length avail = some deck := by
  induction k generalizing deck avail pre with
  | zero =>
    obtain ⟨d, rfl⟩ := List.length_eq_one_iff.1 hlen
    obtain rfl := List.singleton_perm.1 hperm
    rfl
  | succ k ih =>
    match deck with
    | d :: later =>
      replace hlen : later.length = k + 1 := Nat.succ.inj hlen
      obtain ⟨below, above, rfl, hdigit, hperm', hsorted'⟩ := exists_split_of_lehmerDigit hsorted hperm
      have hfield := fieldAt_middle pre (fieldBits below.length (clog2 (k + 2))) (lehmerBits later)
      have hvalue := bitsValue_fieldBits_lehmerDigit d later
      have hrest := ih (pre ++ fieldBits below.length (clog2 (k + 2))) hlen hperm' hsorted'
      have hle : below.length ≤ k + 1 := by rw [hdigit, ← hlen]; exact List.countP_le_length
      rw [← hdigit, hlen] at hvalue
      rw [fieldBits_length, hvalue] at hfield
      rw [List.length_append, fieldBits_length, List.append_assoc] at hrest
      rw [lehmerBits_cons, ← hdigit, hlen, decodeDeck]
      simp only [hfield]
      rw [if_neg (by omega), List.eraseIdx_append_of_length_le le_rfl]
      simp [hrest]

/-- The decoder reads a record of `recordBits` back (42_record_sequencer.md R144). -/
theorem decodeRecord_of_bytesBits {bytes : List Byte} {msl : BitVec 8} {deck : List (BitVec 6)}
    (hbits : bytesBits bytes = recordBits msl deck) (h : IsPermutation deck) :
    decodeRecord bytes = some (difficulty msl + 52, deck.map BitVec.toNat) := by
  have hdeck := decodeDeck_lehmerBits (fieldBits (difficulty msl) 7)
    (by rw [List.length_map, length_of_isPermutation h]) h List.pairwise_lt_range
  have hdiff := fieldAt_middle [] (fieldBits (difficulty msl) 7) (lehmerBits (deck.map BitVec.toNat))
  have hlt : difficulty msl < 2 ^ 7 := by rw [difficulty_eq_mod]; omega
  rw [fieldBits_length] at hdeck hdiff
  rw [bitsValue_fieldBits, Nat.mod_eq_of_lt hlt] at hdiff
  rw [decodeRecord, hbits, recordBits, hdeck]
  exact congrArg (fun d => some (d + 52, deck.map BitVec.toNat)) hdiff

/-- Settles O42: in the range of R134 the difficulty field gives back msl. -/
theorem decodingARecordGivesBackTheConfiguration : Obligations.DecodingARecordGivesBackTheConfiguration := by
  intro msl deck s hp h hlo hhi
  obtain ⟨hexact, -⟩ := difficultyIsExactInRangeAndWrapsOutside msl
  refine ⟨_, recordBlock msl deck, runWords_recordWords msl (dealable_of_isPermutation h) hp, record_out msl deck s, ?_⟩
  rw [decodeRecord_of_bytesBits (bytesBits_recordBlock msl h) h, hexact hlo hhi]

end Sys2Proof.Safety
end

section
/-! SUPPORT. The proofs of the statements of 60_exceptions.md: the order of the checks (R168), that every step answers a
next state which meets the invariant (R169), what fault entry writes (R170), and that HALT ignores every word but CLR
(R171). -/

namespace Sys2Proof.Safety

open Sys2Proof.Machine

/-! ## The invariant -/

/-- Clearing a flag makes at most one more flag 0; a repeated symbol makes none (40_rank_encoder.md R99). -/
theorem clearedFlags_setIfInBounds_le (a : Vector Bool 52) {j : Nat} (hj : j < 52) :
    clearedFlags (a.setIfInBounds j false) ≤ clearedFlags a + 1 := by
  have hsub : {k ∈ Finset.range 52 | availFlag (a.setIfInBounds j false) k = false} ⊆
      insert j {k ∈ Finset.range 52 | availFlag a k = false} := by
    intro k
    by_cases hk : k = j
    · simp [hk]
    · simp [hk, availFlag_setIfInBounds a j k hj]
  rw [clearedFlags_eq_card, clearedFlags_eq_card]
  exact (Finset.card_le_card hsub).trans (Finset.card_insert_le ..)

/-- Outside HALT the invariant says that no fault is recorded (10_state.md R25 item 5). -/
theorem Inv.cause_eq_none {s : State} (h : Inv s) (hp : s.phase ≠ .halted) : s.cause = .none :=
  not_not.1 (mt h.causeIffHalt.1 hp)

/-- The invariant does not speak of what the host has pending. -/
theorem Inv.withPort {s : State} (h : Inv s) (p : List Event) : Inv (withPort p s) where
  lowClear := h.lowClear
  streamFits := h.streamFits
  idleEmpty := h.idleEmpty
  causeIffHalt := h.causeIffHalt
  finfoZero := h.finfoZero
  clearedLeN := h.clearedLeN

theorem inv_resetRegisters (s : State) : Inv (resetRegisters s) where
  lowClear := by simp [LowClear]
  streamFits := by simp
  idleEmpty := by simp
  causeIffHalt := by simp
  finfoZero := by simp
  clearedLeN := by simp

theorem Inv.raiseFault {s : State} (h : Inv s) {f : Cause} (hf : f ≠ .none) (w : Word) : Inv (raiseFault f w s) where
  lowClear := h.lowClear
  streamFits := h.streamFits
  idleEmpty := by simp
  causeIffHalt := by simp [hf]
  finfoZero := by simp
  clearedLeN := h.clearedLeN

theorem Inv.beginStream {s : State} (h : Inv s) (hp : s.phase = .idle) : Inv (beginStream s) where
  lowClear := by simp [LowClear]
  streamFits := by simp
  idleEmpty := by simp
  causeIffHalt := by simp [h.cause_eq_none, hp]
  finfoZero := by simp [h.finfoZero, hp]
  clearedLeN := by simp

theorem Inv.commit_finalize {s : State} (h : Inv s) (hp : s.phase = .opened) : Inv (commit (finalize s)) where
  lowClear := by simp [LowClear]
  streamFits := by simp
  idleEmpty := by simp
  causeIffHalt := by simp [h.cause_eq_none, hp]
  finfoZero := by simp [h.finfoZero, hp]
  clearedLeN := by simpa using h.clearedLeN

/-- A pair that fits keeps the invariant: the capacity check is item 2, and item 1 is Pack's own (41_bit_packer.md
R113). -/
theorem Inv.pack {s : State} (h : Inv s) (hp : s.phase = .opened) {w : Nat} (hf : fits w s = true) (v : Nat) :
    Inv (pack v w s) where
  lowClear := by
    obtain ⟨-, hlow, -⟩ := pack_packed v w s
    exact hlow h.lowClear
  streamFits := (streamLength_pack v w s).trans_le ((fits_iff w s).1 hf)
  idleEmpty := by simp [hp]
  causeIffHalt := by simpa using h.causeIffHalt
  finfoZero := by simpa using h.finfoZero
  clearedLeN := by simpa using h.clearedLeN

/-- The flag that a processed DEAL clears is paid for by N (10_state.md R25 item 7). -/
theorem Inv.consumeSymbol {s : State} (h : Inv s) {sym : BitVec 6} (hs : sym.toNat < 52) (hn : s.n ≠ 51) :
    Inv (consumeSymbol sym s) where
  lowClear := h.lowClear
  streamFits := h.streamFits
  idleEmpty := h.idleEmpty
  causeIffHalt := h.causeIffHalt
  finfoZero := h.finfoZero
  clearedLeN := by
    rw [consumeSymbol_avail, consumeSymbol_n, n_add_one _ hn]
    exact (clearedFlags_setIfInBounds_le _ hs).trans (Nat.add_le_add_right h.clearedLeN 1)

/-- Every word keeps the invariant, case by case (60_exceptions.md R168, R169). -/
theorem Inv.wordCase {w : Word} {s t : State} (h : Inv s) (hcase : WordCase w s t) : Inv t := by
  cases hcase with
  | cleared => exact inv_resetRegisters s
  | ignored | dealIgnored => exact h
  | opened hp => exact h.beginStream hp
  | closed hp => exact h.commit_finalize hp
  | illegal | openedTwice | outOfPhase | badSymbol | dealOverrun | diffOverrun | pushOverrun =>
    exact h.raiseFault (by simp) w
  | dealt hp sym hd hn hs hf => exact (h.consumeSymbol hs hn).pack hp hf _
  | diffed hp msl hd hf => exact h.pack hp hf _
  | pushed hp wid val hd hf => exact h.pack hp hf _

/-- Every event is answered and keeps the invariant. -/
theorem Inv.takeEvent {s : State} (h : Inv s) (e : Event) : ∃ t, takeEvent e s = .next t ∧ Inv t := by
  cases e with
  | reset => exact ⟨_, rfl, inv_resetRegisters s⟩
  | command w =>
    obtain ⟨t, ht, hcase⟩ := presentWord_answers_case w s
    exact ⟨t, ht, h.wordCase hcase⟩

/-- Settles O10: a step is nothing, or the first pending event. -/
theorem everyStepAnswersAndKeepsTheInvariant : Obligations.EveryStepAnswersAndKeepsTheInvariant := by
  intro s h
  refine ⟨?_, resetRegisters s, ?_, resetRegisters_phase s⟩
  · cases hport : s.port with
    | nil => exact ⟨s, step_of_port_nil hport, h⟩
    | cons e rest =>
      rw [step_of_port_cons hport]
      exact (h.withPort rest).takeEvent e
  · exact (step_presentNext _ s).trans (presentWord_of_case (.cleared rfl))

/-! ## HALT -/

/-- In HALT a run without CLR changes nothing (60_exceptions.md R171). -/
theorem runWords_of_halted {s : State} (hp : s.phase = .halted) {ws : List Word} (hws : 0xF000 ∉ ws) :
    runWords ws s = .next s := by
  induction ws with
  | nil => rfl
  | cons w ws ih =>
    obtain ⟨hw, hrest⟩ := List.ne_and_not_mem_of_not_mem_cons hws
    exact (runWords_cons ws (presentWord_of_case (.ignored hp hw.symm))).trans (ih hrest)

/-- Settles O16: one word is ignored, and so is a list of words, one after another. -/
theorem haltIgnoresEveryWordButClr : Obligations.HaltIgnoresEveryWordButClr := fun s hp =>
  ⟨fun w hw => (step_presentNext w s).trans (presentWord_of_case (.ignored hp hw)),
    fun _ hws => runWords_of_halted hp hws⟩

end Sys2Proof.Safety

namespace Sys2Proof.Machine

/-! ## The fields of a legal word -/

theorem legal_of_decode {w : Word} {i : Instr} (hd : decode w = .instr i) : legal w = true := by simp [legal, hd]

/-! The opcode of an operation's word is in its row's mask (30_encoding.md R73, R74). -/

theorem opField_of_decode_diff {w : Word} {msl : BitVec 8} (hd : decode w = .instr (.diff msl)) : opField w = 0x2 :=
  field_eq_of_mask ((decode_diff_iff_mask w).1 ⟨msl, hd⟩) (by decide)

theorem opField_of_decode_deal {w : Word} {sym : BitVec 6} (hd : decode w = .instr (.deal sym)) : opField w = 0x3 :=
  field_eq_of_mask ((decode_deal_iff_mask w).1 ⟨sym, hd⟩) (by decide)

theorem opField_of_decode_push {w : Word} {wid : BitVec 4} {val : BitVec 8}
    (hd : decode w = .instr (.push wid val)) : opField w = 0x4 :=
  field_eq_of_mask ((decode_push_iff_mask w).1 ⟨wid, val, hd⟩).1 (by decide)

/-- The operand of a DEAL is its word's field `sym` (30_encoding.md R72). -/
theorem symField_of_decode_deal {w : Word} {sym : BitVec 6} (hd : decode w = .instr (.deal sym)) :
    symField w = sym := by
  rw [← encode_of_decode hd]
  exact BitVec.extractLsb'_append_eq_right

/-- The width of a PUSH is its word's field `wid` (30_encoding.md R72). -/
theorem widField_of_decode_push {w : Word} {wid : BitVec 4} {val : BitVec 8}
    (hd : decode w = .instr (.push wid val)) : widField w = wid := by
  rw [← encode_of_decode hd]
  exact widField_append ..

/-- The opcodes of the operations that need an open stream (60_exceptions.md R162). -/
theorem opField_mem_of_decode {w : Word} {i : Instr} (hd : decode w = .instr i) (h1 : i ≠ .openStream) (h2 : i ≠ .clr) :
    opField w ∈ [(0x2 : BitVec 4), 0x3, 0x4, 0x5] := by
  cases i with
  | openStream => exact absurd rfl h1
  | diff msl => simp [opField_of_decode_diff hd]
  | deal sym => simp [opField_of_decode_deal hd]
  | push wid val => simp [opField_of_decode_push hd]
  | close => rw [(eq_closeWord_iff w).2 hd]; decide
  | clr => exact absurd rfl h2

/-! ## The order of the checks -/

/-- The first four checks of R168 do not apply to DIFF, DEAL, PUSH and CLOSE in phase OPEN: the outcome is that of the
later checks. -/
theorem checks_of_opened {w : Word} {i : Instr} {s : State} (hp : s.phase = .opened) (hd : decode w = .instr i)
    {halt illcmd clr seq later : Prop} (h : later) (h1 : i ≠ .openStream := by simp) (h2 : i ≠ .clr := by simp) :
    if s.phase = .halted then halt
    else if legal w = false then illcmd
    else if w = 0xF000 then clr
    else if (w = 0x1000 ∧ s.phase = .opened) ∨ (w ≠ 0x1000 ∧ s.phase = .idle) then seq
    else later := by
  simpa [hp, legal_of_decode hd, eq_clrWord_iff, eq_openWord_iff, hd, h1, h2] using h

/-- Settles O13: each case of a word is one item of R168, and no item before it applies. -/
theorem checksAreMadeInTheFixedOrder : Obligations.ChecksAreMadeInTheFixedOrder := by
  intro w s
  obtain ⟨t, ht, hcase⟩ := presentWord_answers_case w s
  have hexec : ∀ i, decode w = .instr i → exec i s = .next t := fun i hd => (presentWord_eq_exec hd s).symm.trans ht
  refine ⟨t, (step_presentNext w s).trans ht, ?_⟩
  cases hcase with
  | cleared hw =>
    have hlegal : legal w ≠ false := by simp [legal_of_decode ((eq_clrWord_iff w).1 hw)]
    rw [if_pos hw, if_pos hw, if_neg hlegal, ite_self]
    rfl
  | ignored hp hw => rw [if_pos hp, if_neg hw]
  | illegal hp r hd => rw [if_neg hp, if_pos ((legal_eq_false_iff w).2 ⟨r, hd⟩), raiseFault]
  | opened hp hw =>
    have hd := (eq_openWord_iff w).1 hw
    have hop : opField w = 0x1 := by rw [hw]; decide
    rw [if_neg (by simp [hp]), if_neg (by simp [legal_of_decode hd]), if_neg (by simp [hw]), if_neg (by simp [hw, hp]),
      if_neg (by simp [hop]), if_neg (by simp [hop]), if_neg (by simp [hop])]
    exact ⟨by simp, by simp, by simp, _, hd, hexec _ hd⟩
  | openedTwice hp hw =>
    have hlegal : legal w ≠ false := by simp [legal_of_decode ((eq_openWord_iff w).1 hw)]
    rw [if_neg (by simp [hp]), if_neg hlegal, if_neg (by simp [hw]), if_pos (.inl ⟨hw, hp⟩), raiseFault]
  | outOfPhase hp i hd h1 h2 =>
    have hclr : w ≠ 0xF000 := by simpa [eq_clrWord_iff, hd] using h2
    have hopen : w ≠ 0x1000 := by simpa [eq_openWord_iff, hd] using h1
    rw [if_neg (by simp [hp]), if_neg (by simp [legal_of_decode hd]), if_neg hclr, if_pos (.inr ⟨hopen, hp⟩), raiseFault]
  | closed hp hw =>
    have hd := (eq_closeWord_iff w).1 hw
    refine checks_of_opened hp hd ?_
    have hop : opField w = 0x5 := by rw [hw]; decide
    rw [if_neg (by simp [hop]), if_neg (by simp [hop]), if_neg (by simp [hop])]
    exact ⟨by simp, by simp, by simp, _, hd, hexec _ hd⟩
  | dealIgnored hp sym hd hn =>
    refine checks_of_opened hp hd ?_
    rw [if_pos ⟨opField_of_decode_deal hd, hn⟩]
  | badSymbol hp sym hd hn hs =>
    refine checks_of_opened hp hd ?_
    rw [if_neg (by simp [hn]), if_pos ⟨opField_of_decode_deal hd, by rwa [symField_of_decode_deal hd]⟩, raiseFault]
  | dealOverrun hp sym hd hn hs hf =>
    refine checks_of_opened hp hd ?_
    rw [if_neg (by simp [hn]), if_neg (by simp [symField_of_decode_deal hd, hs]),
      if_pos (.inr (.inl ⟨opField_of_decode_deal hd, (fits_eq_false_iff _ s).1 hf⟩)), raiseFault]
  | dealt hp sym hd hn hs hf =>
    refine checks_of_opened hp hd ?_
    have hroom := (fits_iff _ s).1 hf
    rw [fieldWidth_eq_clog2] at hroom
    rw [if_neg (by simp [hn]), if_neg (by simp [symField_of_decode_deal hd, hs]),
      if_neg (by simp [opField_of_decode_deal hd, hroom])]
    exact ⟨by simp [hp], by simp, by simp, _, hd, hexec _ hd⟩
  | diffOverrun hp msl hd hf =>
    refine checks_of_opened hp hd ?_
    have hop := opField_of_decode_diff hd
    rw [if_neg (by simp [hop]), if_neg (by simp [hop]), if_pos (.inl ⟨hop, (fits_eq_false_iff _ s).1 hf⟩), raiseFault]
  | diffed hp msl hd hf =>
    refine checks_of_opened hp hd ?_
    have hop := opField_of_decode_diff hd
    rw [if_neg (by simp [hop]), if_neg (by simp [hop]), if_neg (by simp [hop, (fits_iff _ s).1 hf])]
    exact ⟨by simp [hp], by simp, by simp, _, hd, hexec _ hd⟩
  | pushOverrun hp wid val hd hf =>
    refine checks_of_opened hp hd ?_
    have hop := opField_of_decode_push hd
    rw [← widField_of_decode_push hd] at hf
    rw [if_neg (by simp [hop]), if_neg (by simp [hop]), if_pos (.inr (.inr ⟨hop, (fits_eq_false_iff _ s).1 hf⟩)),
      raiseFault]
  | pushed hp wid val hd hf =>
    refine checks_of_opened hp hd ?_
    have hop := opField_of_decode_push hd
    rw [← widField_of_decode_push hd] at hf
    rw [if_neg (by simp [hop]), if_neg (by simp [hop]), if_neg (by simp [hop, (fits_iff _ s).1 hf])]
    exact ⟨by simp [hp], by simp, by simp, _, hd, hexec _ hd⟩

/-- Settles O14: the cases that lead from outside HALT to HALT are the seven that raise a fault. -/
theorem faultEntryWritesPhaseCauseFinfoOnly : Obligations.FaultEntryWritesPhaseCauseFinfoOnly := by
  intro w s t hs h ht
  rw [step_presentNext, presentWord_eq_next_iff] at h
  cases h with
  | cleared | opened | closed => simp at ht
  | ignored hp | dealIgnored hp => exact absurd ht hs
  | dealt | diffed | pushed => exact absurd (by simpa using ht) hs
  | illegal hp r hd => exact ⟨.illcmd, rfl, .inl ⟨rfl, rfl, (legal_eq_false_iff w).2 ⟨r, hd⟩⟩⟩
  | openedTwice hp hw =>
    subst hw
    exact ⟨.seq, rfl, .inr (.inl ⟨rfl, rfl, by decide, .inl ⟨hp, by decide⟩⟩)⟩
  | outOfPhase hp i hd h1 h2 =>
    exact ⟨.seq, rfl, .inr (.inl ⟨rfl, rfl, legal_of_decode hd, .inr ⟨hp, opField_mem_of_decode hd h1 h2⟩⟩)⟩
  | badSymbol hp sym hd hn hsym =>
    rw [← symField_of_decode_deal hd] at hsym
    exact ⟨.badsym, rfl, .inr (.inr (.inl ⟨rfl, rfl, legal_of_decode hd, hp, opField_of_decode_deal hd, hn, hsym⟩))⟩
  | dealOverrun hp sym hd hn hsym hf =>
    rw [← symField_of_decode_deal hd] at hsym
    exact ⟨.overrun, rfl, .inr (.inr (.inr ⟨rfl, rfl, legal_of_decode hd, hp,
      .inr (.inl ⟨opField_of_decode_deal hd, hn, hsym, (fits_eq_false_iff _ s).1 hf⟩)⟩))⟩
  | diffOverrun hp msl hd hf =>
    exact ⟨.overrun, rfl, .inr (.inr (.inr ⟨rfl, rfl, legal_of_decode hd, hp,
      .inl ⟨opField_of_decode_diff hd, (fits_eq_false_iff _ s).1 hf⟩⟩))⟩
  | pushOverrun hp wid val hd hf =>
    rw [← widField_of_decode_push hd] at hf
    exact ⟨.overrun, rfl, .inr (.inr (.inr ⟨rfl, rfl, legal_of_decode hd, hp,
      .inr (.inr ⟨opField_of_decode_push hd, (fits_eq_false_iff _ s).1 hf⟩)⟩))⟩

end Sys2Proof.Machine
end

section
/-! SUPPORT. The proofs of the statements of 70_reset_and_hazards.md: hardware reset (R190), and the wait for the first
command (R191). -/

namespace Sys2Proof.Machine

/-! ## Hardware reset -/

/-- Hardware reset taken from what is pending is the execution of CLR (70_reset_and_hazards.md R190). -/
theorem step_reset_eq_exec_clr (s : State) : step { s with port := .reset :: s.port } = exec .clr s :=
  calc step { s with port := .reset :: s.port }
    _ = takeEvent .reset s := step_pending .reset s
    _ = .next (resetRegisters s) := rfl
    _ = exec .clr s := (exec_clr s).symm

/-- Settles O8: reset is CLR, whose whole next state is known. -/
theorem hardwareResetPutsEveryRegisterInItsResetState : Obligations.HardwareResetPutsEveryRegisterInItsResetState := by
  intro s
  obtain ⟨_, hclr⟩ := clrGivesTheResetState
  exact ⟨(step_reset_eq_exec_clr s).trans (hclr s), step_reset_eq_exec_clr s⟩

/-! ## Nothing pending -/

/-- Settles O7. -/
theorem stepWithNothingPendingChangesNothing : Obligations.StepWithNothingPendingChangesNothing :=
  fun _ => step_of_port_nil

end Sys2Proof.Machine
end

section
/-! SUPPORT. The proof of the converse law of 95_test_vectors.md section 5: each field that the reference decoder reads
without answering invalid is the digit of what it takes, so the bits read are the record's of what it returns. -/

namespace Sys2Proof.Safety

open Sys2Proof.Machine

/-! ## Bits are determined by the numbers read from them -/

/-- Bits are the field of their number, in their own width. -/
theorem fieldBits_bitsValue (bits : List Bool) : fieldBits (bitsValue bits) bits.length = bits := by
  induction bits with
  | nil => rfl
  | cons b bits ih =>
    have hlt := bitsValue_lt bits
    have hvalue : bitsValue (b :: bits) = 2 ^ bits.length * b.toNat + bitsValue bits := by
      rw [← List.singleton_append, bitsValue_append, Nat.mul_comm]
      cases b <;> rfl
    have hfirst : (bitsValue (b :: bits)).testBit bits.length = b := by
      rw [hvalue, Nat.testBit_two_pow_mul_add _ hlt, if_neg (lt_irrefl _), Nat.sub_self]
      cases b <;> rfl
    have hrest : fieldBits (bitsValue (b :: bits)) bits.length = bits := by
      rw [← fieldBits_mod, hvalue, Nat.mul_add_mod, Nat.mod_eq_of_lt hlt, ih]
    rw [List.length_cons, fieldBits, hfirst, hrest]

/-- What is read from the next field of a stream is what stands there, if the stream is long enough. -/
theorem exists_eq_fieldBits_fieldAt_append (pre : List Bool) {rest : List Bool} {w l : Nat}
    (hlen : rest.length = w + l) :
    ∃ tail, rest = fieldBits (fieldAt (pre ++ rest) pre.length w) w ++ tail ∧ tail.length = l := by
  have hbits := fieldBits_bitsValue (rest.take w)
  rw [List.length_take_of_le (by omega)] at hbits
  exact ⟨rest.drop w, by rw [fieldAt, List.drop_left, hbits, List.take_append_drop],
    by rw [List.length_drop, hlen, Nat.add_sub_cancel_left]⟩

/-- A field read is a number of its width. -/
theorem fieldAt_lt (bits : List Bool) (p w : Nat) : fieldAt bits p w < 2 ^ w :=
  (bitsValue_lt _).trans_le (Nat.pow_le_pow_right Nat.two_pos (List.length_take_le w _))

theorem byteBits_injective : Function.Injective byteBits := fun a b h =>
  BitVec.eq_of_toNat_eq (by rw [← bitsValue_byteBits, h, bitsValue_byteBits])

/-- Bytes are determined by their stream bits (20_memory.md R52). -/
theorem bytesBits_injective : Function.Injective bytesBits := by
  intro xs ys h
  have hlen : xs.length = ys.length := by simpa using congrArg List.length h
  induction xs generalizing ys with
  | nil => exact (List.length_eq_zero_iff.1 hlen.symm).symm
  | cons x xs ih =>
    match ys with
    | y :: ys =>
      rw [bytesBits_cons, bytesBits_cons] at h
      obtain ⟨hfirst, hrest⟩ := List.append_inj h (by simp)
      rw [byteBits_injective hfirst, ih hrest (Nat.succ.inj hlen)]

/-! ## What the reference decoder has read when it does not answer invalid -/

/-- A round of the decoder's loop that does not answer invalid takes an available index, and the loop goes on without
it. -/
theorem exists_of_decodeDeck_succ {bits : List Bool} {k p : Nat} {avail deck : List Nat} (hlen : avail.length = k + 2)
    (h : decodeDeck bits (k + 1) p avail = some deck) :
    ∃ below d above later, avail = below ++ d :: above ∧ below.length = fieldAt bits p (clog2 (k + 2)) ∧
      decodeDeck bits k (p + clog2 (k + 2)) (below ++ above) = some later ∧ deck = d :: later := by
  rw [decodeDeck] at h
  split at h
  case isTrue => cases h
  case isFalse hv =>
    obtain ⟨later, hlater, hdeck⟩ := Option.map_eq_some_iff.1 h
    have hlt : fieldAt bits p (clog2 (k + 2)) < avail.length := by omega
    rw [List.eraseIdx_eq_take_drop_succ] at hlater
    rw [List.getElem?_eq_getElem hlt] at hdeck
    refine ⟨_, _, _, later, ?_, List.length_take_of_le hlt.le, hlater, hdeck.symm⟩
    rw [← List.drop_eq_getElem_cons hlt, List.take_append_drop]

/-- The place of an available symbol, ascending, is its Lehmer digit before the others in any order: the converse of
`exists_split_of_lehmerDigit`. -/
theorem lehmerDigit_eq_length {below above later : List Nat} {d : Nat}
    (hsorted : (below ++ d :: above).Pairwise (· < ·)) (hperm : later.Perm (below ++ above)) :
    (later.countP fun j => decide (j < d)) = below.length := by
  obtain ⟨below', above', hsplit, hdigit, -, -⟩ :=
    exists_split_of_lehmerDigit hsorted ((hperm.cons d).trans List.perm_middle.symm)
  have hnodup : (below ++ d :: above).Nodup := hsorted.imp Nat.ne_of_lt
  have hd : d ∉ below ++ above := (List.nodup_cons.1 (List.nodup_middle.1 hnodup)).1
  obtain ⟨hbelow, habove⟩ := not_or.1 (List.mem_append.not.1 hd)
  obtain ⟨rfl, -, -⟩ := (List.append_cons_inj_of_notMem hbelow habove).1 hsplit
  exact hdigit.symm

/-- What the decoder's loop returns is a deck of the available symbols, and the bits it read are that deck's rank
fields. `n` positions are read already. -/
theorem perm_and_lehmerBits_of_decodeDeck {n k : Nat} (hn : n + k = 51) {deck avail : List Nat} (pre : List Bool)
    {rest : List Bool} (hlen : avail.length = k + 1) (hsorted : avail.Pairwise (· < ·))
    (hrest : rest.length = scheduleBits n k) (h : decodeDeck (pre ++ rest) k pre.length avail = some deck) :
    deck.Perm avail ∧ rest = lehmerBits deck := by
  induction k generalizing n deck avail pre rest with
  | zero =>
    obtain ⟨d, rfl⟩ := List.length_eq_one_iff.1 hlen
    obtain rfl : [d] = deck := Option.some.inj h
    exact ⟨.rfl, List.length_eq_zero_iff.1 hrest⟩
  | succ k ih =>
    obtain ⟨below, d, above, later, rfl, hv, hlater, rfl⟩ := exists_of_decodeDeck_succ hlen h
    have hwidth : fieldWidth n = clog2 (k + 2) := by rw [fieldWidth_eq_clog2, show 52 - n = k + 2 by omega]
    rw [scheduleBits_succ, hwidth] at hrest
    obtain ⟨tail, hfield, htail⟩ := exists_eq_fieldBits_fieldAt_append pre hrest
    rw [← hv] at hfield
    subst hfield
    have hleft : (below ++ above).length = k + 1 := by
      rw [List.perm_middle.length_eq, List.length_cons] at hlen
      exact Nat.succ.inj hlen
    have hsorted' := hsorted.sublist ((List.sublist_cons_self d above).append_left below)
    obtain ⟨hperm, rfl⟩ := ih (n := n + 1) (by omega) (pre ++ fieldBits below.length (clog2 (k + 2))) hleft hsorted'
      htail (by rwa [List.append_assoc, List.length_append, fieldBits_length])
    exact ⟨(hperm.cons d).trans List.perm_middle.symm,
      by rw [lehmerBits_cons, lehmerDigit_eq_length hsorted hperm, hperm.length_eq, hleft]⟩

/-- Below 64 a number is that of the symbol it is made into, as DEAL's field has 6 bits (30_encoding.md R72). -/
theorem map_toNat_map_ofNat {deck : List Nat} (h : ∀ d ∈ deck, d < 64) :
    (deck.map (BitVec.ofNat 6)).map BitVec.toNat = deck :=
  calc (deck.map (BitVec.ofNat 6)).map BitVec.toNat
    _ = deck.map (BitVec.toNat ∘ BitVec.ofNat 6) := List.map_map
    _ = deck.map id := List.map_congr_left fun d hd => Nat.mod_eq_of_lt (h d hd)
    _ = deck := List.map_id deck

/-- A difficulty of 7 bits is that of the msl which the decoder makes of it (42_record_sequencer.md R134). -/
theorem difficulty_ofNat_add_bias {v : Nat} (hv : v < 2 ^ 7) : difficulty (BitVec.ofNat 8 (v + 52)) = v := by
  rw [difficulty_eq_mod, BitVec.toNat_ofNat]
  omega

/-- 32 bytes that are not invalid: the difficulty read, and the 249 bits from which the loop reads the deck. -/
theorem exists_of_decodeRecord {bytes : List Byte} {m : Nat} {deck : List Nat} (hlen : bytes.length = 32)
    (h : decodeRecord bytes = some (m, deck)) :
    ∃ v rest, v < 2 ^ 7 ∧ m = v + 52 ∧ bytesBits bytes = fieldBits v 7 ++ rest ∧ rest.length = scheduleBits 0 51 ∧
      decodeDeck (fieldBits v 7 ++ rest) 51 7 (List.range 52) = some deck := by
  obtain ⟨_, hdeck, heq⟩ := Option.map_eq_some_iff.1 h
  obtain ⟨rfl, rfl⟩ := Prod.mk.inj heq
  have hbits : (bytesBits bytes).length = 7 + scheduleBits 0 51 := by
    rw [bytesBits_length, hlen, diffW_add_scheduleBits]
  obtain ⟨rest, hfield, hrest⟩ := exists_eq_fieldBits_fieldAt_append [] hbits
  exact ⟨_, rest, fieldAt_lt _ 0 7, rfl, hfield, hrest, hfield ▸ hdeck⟩

/-- 32 bytes that are not invalid have the layout of the record of their decoding (42_record_sequencer.md R141). -/
theorem isPermutation_and_bytesBits_of_decodeRecord {bytes : List Byte} {m : Nat} {deck : List Nat}
    (hlen : bytes.length = 32) (h : decodeRecord bytes = some (m, deck)) :
    IsPermutation (deck.map (BitVec.ofNat 6)) ∧
      bytesBits bytes = recordBits (BitVec.ofNat 8 m) (deck.map (BitVec.ofNat 6)) := by
  obtain ⟨v, rest, hv, rfl, hbits, hrest, hdeck⟩ := exists_of_decodeRecord hlen h
  obtain ⟨hperm, rfl⟩ := perm_and_lehmerBits_of_decodeDeck (Nat.zero_add 51) (fieldBits v 7) List.length_range
    List.pairwise_lt_range hrest (by rwa [fieldBits_length])
  have hmap := map_toNat_map_ofNat fun d hd => (List.mem_range.1 (hperm.subset hd)).trans (by decide : 52 < 64)
  exact ⟨by rwa [IsPermutation, hmap], by rw [hbits, recordBits, hmap, difficulty_ofNat_add_bias hv]⟩

/-- Settles O43: the record's bytes are those with the layout of the decoded configuration. -/
theorem validBytesAreTheRecordOfTheirDecoding : Obligations.ValidBytesAreTheRecordOfTheirDecoding := by
  intro bytes m deck s hlen hp h
  obtain ⟨hperm, hbits⟩ := isPermutation_and_bytesBits_of_decodeRecord hlen h
  have hblock : recordBlock (BitVec.ofNat 8 m) (deck.map (BitVec.ofNat 6)) = bytes :=
    bytesBits_injective ((bytesBits_recordBlock _ hperm).trans hbits.symm)
  exact ⟨_, runWords_recordWords _ (dealable_of_isPermutation hperm) hp, by rw [record_out, hblock]⟩

end Sys2Proof.Safety
end
